-- ==== Sys2Proof/Word.lean ====
section
/-! DEFINITION. The words of the machine: bytes, 32-bit bus words and 18-bit block offsets (spec 00_scope.md section 4,
R13, R15, R50). Every value of the block is unsigned (R13). -/

namespace Sys2Proof

/-- A byte, or an 8-bit symbol code (R15, R85). -/
abbrev Byte := BitVec 8

/-- A 32-bit register or bus word (R57). -/
abbrev Word := BitVec 32

/-- A block offset, 0x00000 to 0x3FFFF (R50). -/
abbrev Offset := BitVec 18

end Sys2Proof
end

