-- ==== Sys2Proof/Config.lean ====
section
/-! DEFINITION. What an implementation fixes (the parameters of 00_scope.md section 4) and the free values: the values the
spec leaves unspecified, each an opaque constant with no body, so that no proof can see what it is. -/

namespace Sys2Proof

/-- The parameter IBUF_SIZE of one copy of the block, an OPEN argument of the model (R9, D6, log entry 2): the index of
the last cell of IBUF, so that 1 ≤ IBUF_SIZE ≤ 65536 holds by the type. -/
structure Params where
  ibufLast : Fin 65536
  deriving DecidableEq, Repr

/-- IBUF_SIZE, the number of cells of the input buffer (R9). -/
def Params.ibufSize (p : Params) : Nat := p.ibufLast.val + 1

/-- OBUF_SIZE = max(2·IBUF_SIZE, 4·⌈IBUF_SIZE/3⌉) (R10). -/
def Params.obufSize (p : Params) : Nat := max (2 * p.ibufSize) (4 * ((p.ibufSize + 2) / 3))

/-- FREE VALUE (R65, R203, R215, U13; log entry 3): what IBUF cell `i` holds after the reset numbered `draw` until the host
writes it. -/
opaque Config.ibufUnwritten (draw i : Nat) : Byte

/-- FREE VALUE (R67, R106, R107, R203, U10, U11, U13; log entry 4): what OBUF cell `j` holds when the commit or reset
numbered `draw` left it undefined, until the next commit or reset. -/
opaque Config.obufUndefined (draw j : Nat) : Byte

/-- FREE VALUE (R37, R67, U12; log entry 5): byte `k` of the OBUF read numbered `draw`, made while BUSY = 1. -/
opaque Config.obufBusyRead (draw k : Nat) : Byte

/-- FREE VALUE (R122, U7; log entry 7): U64E's four symbols for the reserved count k = 0. -/
opaque Config.u64eCountZero (b0 b1 b2 : Byte) : Byte × Byte × Byte × Byte

/-- FREE VALUE (R137, U8; log entry 7): U64D's data outputs b0, b1, b2 when err = 1. -/
opaque Config.u64dErrBytes (s0 s1 s2 s3 : Byte) : Byte × Byte × Byte

/-- FREE VALUE (R137, U8; log entry 7): U64D's count output k when err = 1. -/
opaque Config.u64dErrCount (s0 s1 s2 s3 : Byte) : BitVec 2

/-- FREE VALUE (R137, U8; log entry 7): U64D's output fin when err = 1. -/
opaque Config.u64dErrFin (s0 s1 s2 s3 : Byte) : Bool

/-- FREE VALUE (R161, U9; log entry 7): U16D's output b when err = 1. -/
opaque Config.u16dErrByte (h l : Byte) : Byte

end Sys2Proof
end

