-- ==== Sys2Proof/Syntax.lean ====
section
/-! DEFINITION. The commands of the block (30_encoding.md R82, R91), the host's bus accesses (20_memory.md R60, R61) and the
turns in which the agents move (R19, R72, R200, R221). -/

namespace Sys2Proof

/-- The four commands, one for each row of spec/opcode_table.json (R82). A command has no operand field: its operands are
n = IN_LEN.LEN at the accept step and IBUF[0 .. n-1] (R81, R90). -/
inductive Instr where
  | b64enc
  | b64dec
  | b16enc
  | b16dec
  deriving DecidableEq, Repr

/-- One host bus access of `n` bytes at a block offset (R17, R60, R61). `n` is any number: a size the block does not support
is a bus error (R173, D8). A write carries its value in the low 8·n bits of `v`. -/
inductive Access where
  | read (off : Offset) (n : Nat)
  | write (off : Offset) (n : Nat) (v : Word)
  deriving DecidableEq, Repr

/-- Whose move it is (R19, R70, R72, R200). The order of the turns is not the block's to choose: R72 lets engine steps
interleave with host accesses in any order, and R221 lets the commit come at any time after the accept (log entry 1). -/
inductive Turn where
  /-- The host performs one bus access. -/
  | host (a : Access)
  /-- The engine takes a step before its commit (R104). -/
  | engineWork
  /-- The engine takes its commit step (R106, R107). -/
  | engineCommit
  /-- The reset input is applied (R200). -/
  | resetOn
  /-- The reset input is released. -/
  | resetOff
  deriving DecidableEq, Repr

end Sys2Proof
end

