-- ==== Sys2Proof/WellFormed.lean ====
section
/-! DEFINITION. What well-formed means, each check a Bool: a command (no field to check), a command word (RSVD = 0, R25,
R92), a host access (supported size and natural alignment, R62, R63) and an input length (R27, R102). -/

namespace Sys2Proof

/-- A command has no operand field (R81), so each of the four is well formed. -/
def Instr.wellFormed : Instr → Bool
  | .b64enc => true
  | .b64dec => true
  | .b16enc => true
  | .b16dec => true

/-- The RSVD field of a command word is zero (R25, R81, R92). -/
def cmdWordWellFormed (w : Word) : Bool := w.extractLsb' 2 30 == 0#30

/-- The sizes a host access can have (R60, R61, D8). -/
def sizeWellFormed (n : Nat) : Bool := n == 1 || n == 2 || n == 4

/-- A host access has a supported size and is naturally aligned; in the register window it has 4 bytes (R62, R63). -/
def Access.wellFormed : Access → Bool
  | .read off n => sizeWellFormed n && off.toNat % n == 0 && (decide (0xFF < off.toNat) || n == 4)
  | .write off n _ => sizeWellFormed n && off.toNat % n == 0 && (decide (0xFF < off.toNat) || n == 4)

/-- The input length fits the input buffer: the operand check of every command (R27, R102). -/
def lengthWellFormed (p : Params) (len : BitVec 17) : Bool := decide (len.toNat ≤ p.ibufSize)

end Sys2Proof
end

