-- ==== Sys2Proof/Decode.lean ====
section
/-! DEFINITION. The command decoder (30_encoding.md R91), total over all 2^32 words and rejecting by name (R92), and after it
the encoder, written from the table of R91. A command word crosses the bus whole: bus data bit k is CMD bit k (R57), so it
has no byte order. -/

namespace Sys2Proof

/-- Why the decoder rejects a word. -/
inductive DecodeError where
  /-- CMD[31:2] is not zero (R92). -/
  | reservedNotZero (w : Word)
  deriving DecidableEq, Repr

/-- CMD.OP, the operation field CMD[1:0] (R24, R81). -/
def cmdOp (w : Word) : BitVec 2 := w.extractLsb' 0 2

/-- The operation an OP value selects (R24, R82): all four values are legal. -/
def opInstr (op : BitVec 2) : Instr :=
  if op = 0b00#2 then .b64enc
  else if op = 0b01#2 then .b64dec
  else if op = 0b10#2 then .b16enc
  else .b16dec

/-- DecodeCmd of R91. -/
def decodeWord (w : Word) : Except DecodeError Instr :=
  if cmdWordWellFormed w then .ok (opInstr (cmdOp w)) else .error (.reservedNotZero w)

/-- The OP value of a command (R82). -/
def instrOp : Instr → BitVec 2
  | .b64enc => 0b00#2
  | .b64dec => 0b01#2
  | .b16enc => 0b10#2
  | .b16dec => 0b11#2

/-- The command word of a command: RSVD = 0 and its OP value (R81, R91). -/
def encode (i : Instr) : Word := 0#30 ++ instrOp i

/-- What the decoder reads from a command whose bits are `w`, numbered as spec/opcode_table.json numbers them: one 32-bit
word, bit k of the table being bit k of CMD. Bits above `nbits` are zero; a number that needs more than 32 bits is no
command word. -/
def decodeTableWord (nbits w : Nat) : Option Instr :=
  if w % 2 ^ nbits < 2 ^ 32 then
    match decodeWord (BitVec.ofNat 32 (w % 2 ^ nbits)) with
    | .ok i => some i
    | .error _ => none
  else none

end Sys2Proof
end

