-- ==== Sys2Proof/Machine/State.lean ====
section
/-! DEFINITION. The state of one copy of the block (10_state.md), its faults and refusals, and the state right after reset
(70_reset_and_hazards.md R201 to R203). INVENTORY.md lists every field with the rule that names it. -/

namespace Sys2Proof.Machine

/-- The engine's phase (R36). -/
inductive Phase where
  | idle
  | run
  deriving DecidableEq, Repr

/-- A host write that BUSY = 1 made the block ignore: a hazard the model flags, not an error of the block (R115, R211, R212,
U25). -/
inductive Hazard where
  /-- A write to IBUF at this offset was lost (R66, R211). -/
  | lostIbufWrite (off : Offset)
  /-- A write of this word to IN_LEN was lost (R27, R211). -/
  | lostInLenWrite (w : Word)
  /-- A write of this word to CMD was lost (R108, R212). -/
  | lostCmdWrite (w : Word)
  deriving DecidableEq, Repr

/-- The two codec errors (R18, R170, R171). -/
inductive ErrKind where
  | invalidLength
  | invalidCharacter
  deriving DecidableEq, Repr

/-- The result of a transform (R18). -/
inductive Result where
  | ok (out : List Byte)
  | err (k : ErrKind)
  deriving DecidableEq, Repr

/-- Why a step faults. -/
inductive Fault where
  /-- Raised by a host access that the block does not support, at this offset: an unmapped offset, an unsupported size, a
  misaligned access or one that does not lie wholly inside its buffer (R53, R62, R63, R64, R173). The spec's own treatment
  (U24, D38): the access has no effect and the model stops the host's run. Safe. -/
  | busError (off : Offset)
  deriving DecidableEq, Repr

/-- Why a step is refused. -/
inductive Refusal where
  /-- Raised by `exec`'s arm of a command that has no meaning yet; no arm is left that raises it. Safe. -/
  | notModelled (mnemonic : String)
  /-- Raised by a host access while the reset input is applied, which R200 leaves undefined and forbids to the host; the
  spec's own treatment is to refuse it (U27, D35). Safe. -/
  | accessDuringReset
  deriving DecidableEq, Repr

/-- One copy of the block: the registers and buffers of 10_state.md, the engine's working registers (R20, R21), the reset
input, its fixed parameters, and, last, the model's own fields (INVENTORY.md). -/
structure State where
  /-- The parameters: fixed, no step changes them (R9, R19). -/
  cfg : Params
  /-- CMD (R23). -/
  cmd : Word
  /-- STATUS.DONE (R30). -/
  done : Bool
  /-- STATUS.ERR (R31). -/
  err : BitVec 2
  /-- STATUS.REJ (R32). -/
  rej : Bool
  /-- IN_LEN.LEN (R27). -/
  inLen : BitVec 17
  /-- OUT_LEN.LEN (R28). -/
  outLen : BitVec 18
  /-- IBUF: the cells written since reset, by index (R33). -/
  ibuf : List Host.Cell
  /-- OBUF: the cells the last commit defined, by index (R34). -/
  obuf : List Host.Cell
  /-- The engine's phase; STATUS.BUSY is 1 exactly when it is RUN (R29, R36). -/
  phase : Phase
  /-- The latched operation (R20, R103). -/
  eop : BitVec 2
  /-- The latched length (R20, R103). -/
  en : BitVec 17
  /-- The input position (R21). -/
  ipos : BitVec 17
  /-- The output position (R20). -/
  opos : BitVec 18
  /-- The group latch, up to four bytes (R20). -/
  latch : List Byte
  /-- The level of the reset input (R200). -/
  resetPin : Bool
  /-- MODEL: the moves still to come (log entry 1). -/
  turns : List Turn
  /-- MODEL: the data the last host read returned (R60; log entry 9). -/
  readData : Option Word
  /-- MODEL: the host writes lost so far, newest first (R115, R211; log entry 10). -/
  hazards : List Hazard
  /-- MODEL: the number of the next draw of free values (log entry 5). -/
  draw : Nat
  /-- MODEL: the draw that fixes the IBUF cells nobody has written since reset (log entry 3). -/
  ibufDraw : Nat
  /-- MODEL: the draw that fixes the OBUF cells left undefined by the last commit or reset (log entry 4). -/
  obufDraw : Nat
  deriving DecidableEq, Repr

/-- The machine right after reset: registers zero (R201), engine IDLE (R202), no buffer cell written or defined (R203). The
working registers hold named values (R202, log entry 6); IBUF_SIZE is 65536 (log entry 2). -/
def State.reset : State where
  cfg := ⟨65535⟩
  cmd := 0
  done := false
  err := 0
  rej := false
  inLen := 0
  outLen := 0
  ibuf := []
  obuf := []
  phase := .idle
  eop := 0
  en := 0
  ipos := 0
  opos := 0
  latch := []
  resetPin := false
  turns := []
  readData := none
  hazards := []
  draw := 1
  ibufDraw := 0
  obufDraw := 0

end Sys2Proof.Machine
end

