-- ==== Sys2Proof/Machine/Flags.lean ====
section
/-! DEFINITION. The STATUS register (10_state.md R26, R29 to R32): its word, its flags, and the six words it takes. -/

namespace Sys2Proof.Machine

/-- STATUS.BUSY: 1 exactly when the phase is RUN (R29, R36). -/
def State.busy (s : State) : Bool :=
  match s.phase with
  | .run => true
  | .idle => false

/-- The STATUS word: {0[31:5], REJ, ERR, DONE, BUSY} (R26). -/
def statusWord (s : State) : Word :=
  0#27 ++ BitVec.ofBool s.rej ++ s.err ++ BitVec.ofBool s.done ++ BitVec.ofBool s.busy

/-- The ERR code of an error kind (R31, R170, R171). -/
def errCode : ErrKind → BitVec 2
  | .invalidLength => 1
  | .invalidCharacter => 2

/-- STATUS <- the word with the given fields; BUSY and the phase are one thing (R36). -/
def State.setStatus (s : State) (phase : Phase) (done : Bool) (err : BitVec 2) (rej : Bool) : State :=
  { s with phase := phase, done := done, err := err, rej := rej }

end Sys2Proof.Machine
end

