-- ==== Sys2Proof/Machine/Ops.lean ====
section
/-! DEFINITION. The named operations: buffer cells (R33, R34), the life cycle every command shares (R101 to R103, R106, R107)
and reset (R200 to R204). An error of a command is taken by `commitErr`: it is a status outcome, with no handler, no saved
register and no return (R181, R182). -/

namespace Sys2Proof.Machine

/-! ## Buffer cells

A buffer is a list of (index, byte) pairs with indexes strictly rising. An unlisted cell has no value of its own: what it
reads as is a free value, supplied by `ibufByte` and `obufByte`. -/

/-- The canonical form: indexes strictly rising. -/
def Memory.wf : List Host.Cell → Bool
  | [] => true
  | [_] => true
  | c :: d :: rest => decide (c.1 < d.1) && Memory.wf (d :: rest)

/-- Every listed cell has an index below `size`. -/
def Memory.below (size : Nat) (m : List Host.Cell) : Bool := m.all fun c => decide (c.1 < size)

/-- The byte of a listed cell; none when the cell is not listed. -/
def Memory.get? : List Host.Cell → Nat → Option Byte
  | [], _ => none
  | c :: rest, a => if c.1 = a then some c.2 else Memory.get? rest a

/-- Write one cell, keeping the canonical form. -/
def Memory.set : List Host.Cell → Nat → Byte → List Host.Cell
  | [], a, b => [(a, b)]
  | c :: rest, a, b =>
    if a < c.1 then (a, b) :: c :: rest
    else if a = c.1 then (a, b) :: rest
    else c :: Memory.set rest a b

/-- Write a sequence of bytes into the cells from `a` on, in ascending order (R55, R56). -/
def Memory.writeBytes : List Host.Cell → Nat → List Byte → List Host.Cell
  | m, _, [] => m
  | m, a, b :: bs => Memory.writeBytes (Memory.set m a b) (a + 1) bs

/-- The buffer in which exactly the cells from `a` on that `bs` defines are listed (R106). -/
def Memory.ofBytes : Nat → List Byte → List Host.Cell
  | _, [] => []
  | a, b :: bs => (a, b) :: Memory.ofBytes (a + 1) bs

/-- IBUF[i]: the stored byte, or, where nobody has written since reset, the unspecified but stable value (R65, R203, R215). -/
def ibufByte (s : State) (i : Nat) : Byte :=
  (Memory.get? s.ibuf i).getD (Config.ibufUnwritten s.ibufDraw i)

/-- OBUF[j]: the byte the last commit defined, or, where it defined none, the unspecified but stable value (R67, R203). -/
def obufByte (s : State) (j : Nat) : Byte :=
  (Memory.get? s.obuf j).getD (Config.obufUndefined s.obufDraw j)

/-! ## The life cycle of a command -/

/-- Reject() of R102: STATUS <- 0x00000012, OUT_LEN.LEN <- 0; the engine does not run. -/
def reject (s : State) : State :=
  { (s.setStatus .idle true 0 true) with outLen := 0 }

/-- Accept(w) of R103: the operation and the length are latched, STATUS <- 0x00000001, OUT_LEN.LEN <- 0, and the working
positions start at 0 (R21). -/
def accept (w : Word) (s : State) : State :=
  { (s.setStatus .run false 0 false) with
    eop := cmdOp w, en := s.inLen, ipos := 0, opos := 0, latch := [], outLen := 0 }

/-- Issue(w) of R101: a malformed word or a length larger than IBUF_SIZE is rejected, any other command accepted. -/
def issue (w : Word) (s : State) : State :=
  match decodeWord w with
  | .error _ => reject s
  | .ok _ => if lengthWellFormed s.cfg s.inLen then accept w s else reject s

/-- CommitOk(out) of R106: OBUF holds the output, its other cells hold a fresh unspecified value, STATUS <- 0x00000002. -/
def commitOk (out : List Byte) (s : State) : State :=
  { (s.setStatus .idle true 0 false) with
    obuf := Memory.ofBytes 0 out, outLen := BitVec.ofNat 18 out.length, obufDraw := s.draw, draw := s.draw + 1 }

/-- CommitErr(k) of R107, the one way an error is taken: no output, every OBUF cell holds a fresh unspecified value,
STATUS <- 0x00000006 or 0x0000000A. -/
def commitErr (k : ErrKind) (s : State) : State :=
  { (s.setStatus .idle true (errCode k) false) with
    obuf := [], outLen := 0, obufDraw := s.draw, draw := s.draw + 1 }

/-- The commit step of a transform's result (R106, R107). -/
def commit (r : Result) (s : State) : State :=
  match r with
  | .ok out => commitOk out s
  | .err k => commitErr k s

/-! ## Reset, lost writes, read data -/

/-- Applying reset (R200 to R204): every register takes its reset value, a running command is aborted and never commits, and
every buffer cell holds a fresh unspecified value. The parameters stay, and so do the model's record of lost writes and the
turns still to come. -/
def applyReset (s : State) : State :=
  { State.reset with
    cfg := s.cfg, resetPin := true, turns := s.turns, hazards := s.hazards,
    draw := s.draw + 1, ibufDraw := s.draw, obufDraw := s.draw }

/-- Releasing the reset input: the block then takes host accesses at once (R207). -/
def releaseReset (s : State) : State := { s with resetPin := false }

/-- A host write that BUSY = 1 made the block ignore: nothing is stored, and the model flags the hazard (R108, R115, R211). -/
def State.lose (s : State) (h : Hazard) : State := { s with hazards := h :: s.hazards }

/-- A host read returns its data and changes nothing of the block (R71). -/
def State.answer (s : State) (v : Word) : State := { s with readData := some v }

/-- The first of the turns still to come has been taken. -/
def State.dropTurn (s : State) : State := { s with turns := s.turns.tail }

end Sys2Proof.Machine
end

