-- ==== Sys2Proof/Machine/Operands.lean ====
section
/-! DEFINITION. The operand forms: the input sequence of a command (R77, R90, R103), and the bytes of a bus word (R56). -/

namespace Sys2Proof.Machine

/-- The first `n` bytes of IBUF, in ascending order (R55, R90). -/
def ibufTake (s : State) (n : Nat) : List Byte := (List.range n).map (ibufByte s)

/-- The input of the accepted command: `in` = [IBUF[0], ..., IBUF[en-1]] (R90, R103). -/
def input (s : State) : List Byte := ibufTake s s.en.toNat

/-- The value of a sequence of bytes on the bus, the first byte in bits [7:0] (R56). -/
def leValue : List Byte → Word
  | [] => 0
  | b :: bs => (leValue bs <<< 8) ||| b.setWidth 32

/-- The bytes of the low 8·n bits of a bus word, v[8k+7:8k] for each k < n (R56). -/
def leBytes (n : Nat) (v : Word) : List Byte := (List.range n).map fun k => v.extractLsb' (8 * k) 8

end Sys2Proof.Machine
end

