-- ==== Sys2Proof/Machine/Bus.lean ====
section
/-! DEFINITION. The host's bus accesses: the address map (R52), the checks that raise a bus error (R53, R62 to R64), MemRead
(R60), MemWrite (R61), RegRead and RegWrite (R69). -/

namespace Sys2Proof.Machine

/-- What a supported access reaches: a register word, or cells of a buffer from an index on. -/
inductive Target where
  | reg (o : Nat)
  | ibuf (a : Nat)
  | obuf (a : Nat)
  deriving DecidableEq, Repr

/-- What an access of `n` bytes at `off` reaches; none where the block answers with a bus error (R52, R53, R60 to R64, D8).
The checks do not look at the engine (R180). -/
def busTarget (p : Params) (off : Offset) (n : Nat) : Option Target :=
  if sizeWellFormed n then
    if off.toNat ≤ 0x000FF then
      if n = 4 ∧ off.toNat % 4 = 0 then some (.reg off.toNat) else none
    else if 0x10000 ≤ off.toNat ∧ off.toNat ≤ 0x1FFFF then
      if off.toNat % n = 0 ∧ off.toNat - 0x10000 + n ≤ p.ibufSize then some (.ibuf (off.toNat - 0x10000)) else none
    else if 0x20000 ≤ off.toNat then
      if off.toNat % n = 0 ∧ off.toNat - 0x20000 + n ≤ p.obufSize then some (.obuf (off.toNat - 0x20000)) else none
    else none
  else none

/-- RegRead (R69): reserved words read as zero (R54). -/
def regRead (o : Nat) (s : State) : Word :=
  if o = 0x000 then s.cmd
  else if o = 0x004 then statusWord s
  else if o = 0x008 then s.inLen.setWidth 32
  else if o = 0x00C then s.outLen.setWidth 32
  else 0

/-- A host write of CMD (R23, R101, R108). -/
def writeCmd (v : Word) (s : State) : State :=
  match s.phase with
  | .idle => issue v { s with cmd := v }
  | .run => s.lose (.lostCmdWrite v)

/-- A host write of IN_LEN (R27). -/
def writeInLen (v : Word) (s : State) : State :=
  match s.phase with
  | .idle => { s with inLen := v.extractLsb' 0 17 }
  | .run => s.lose (.lostInLenWrite v)

/-- A host write of `n` bytes to IBUF from cell `a` on (R61, R66); `off` names the access where the write is lost. -/
def writeIbuf (off : Offset) (a n : Nat) (v : Word) (s : State) : State :=
  match s.phase with
  | .idle => { s with ibuf := Memory.writeBytes s.ibuf a (leBytes n v) }
  | .run => s.lose (.lostIbufWrite off)

/-- RegWrite (R69): STATUS and OUT_LEN are read-only and reserved words ignore writes (R26, R28, R54). -/
def regWrite (o : Nat) (v : Word) (s : State) : State :=
  if o = 0x000 then writeCmd v s
  else if o = 0x008 then writeInLen v s
  else s

/-- A host read of `n` bytes of IBUF from cell `a` on (R65). -/
def readIbuf (a n : Nat) (s : State) : State :=
  s.answer (leValue ((List.range n).map fun k => ibufByte s (a + k)))

/-- A host read of `n` bytes of OBUF from cell `a` on: the stored cells, or, while BUSY = 1, a fresh unspecified value
(R67). -/
def readObuf (a n : Nat) (s : State) : State :=
  match s.phase with
  | .idle => s.answer (leValue ((List.range n).map fun k => obufByte s (a + k)))
  | .run => { (s.answer (leValue ((List.range n).map fun k => Config.obufBusyRead s.draw k))) with draw := s.draw + 1 }

/-- MemRead (R60). -/
def memRead (off : Offset) (n : Nat) (s : State) : Host.Outcome State Fault Refusal :=
  match busTarget s.cfg off n with
  | none => .fault (.busError off)
  | some (.reg o) => .next (s.answer (regRead o s))
  | some (.ibuf a) => .next (readIbuf a n s)
  | some (.obuf a) => .next (readObuf a n s)

/-- MemWrite (R61). An aligned write inside OBUF is ignored (R68). -/
def memWrite (off : Offset) (n : Nat) (v : Word) (s : State) : Host.Outcome State Fault Refusal :=
  match busTarget s.cfg off n with
  | none => .fault (.busError off)
  | some (.reg o) => .next (regWrite o v s)
  | some (.ibuf a) => .next (writeIbuf off a n v s)
  | some (.obuf _) => .next s

/-- One host access. While the reset input is applied it has no meaning, and the model refuses it (R200, U27). -/
def hostAccess (a : Access) (s : State) : Host.Outcome State Fault Refusal :=
  if s.resetPin then .refused .accessDuringReset
  else
    match a with
    | .read off n => memRead off n s
    | .write off n v => memWrite off n v s

end Sys2Proof.Machine
end

