-- ==== Sys2Proof/Machine/Tables.lean ====
section
/-! DEFINITION. The four constant tables LUT64, INV64, LUT16 and INV16 (10_state.md R35; 30_encoding.md R86 to R89), by the
formulas of those rules. The codes are ASCII by the spec's decision D2 (log entry 12). No access writes them and reset does
not change them (R35, R205). -/

namespace Sys2Proof.Machine

/-- The class INV64 gives a code (R87). -/
inductive Class64 where
  | val (v : BitVec 6)
  | pad
  | invalid
  deriving DecidableEq, Repr

/-- The class INV16 gives a code (R89); Base16 has no padding class. -/
inductive Class16 where
  | val (v : BitVec 4)
  | invalid
  deriving DecidableEq, Repr

/-- The code of `=` (R87, R121). -/
def padCode : Byte := 0x3D#8

/-- LUT64: the symbol code of a sextet (R86). -/
def lut64 (q : BitVec 6) : Byte :=
  if q.toNat ≤ 25 then BitVec.ofNat 8 (0x41 + q.toNat)
  else if q.toNat ≤ 51 then BitVec.ofNat 8 (0x47 + q.toNat)
  else if q.toNat ≤ 61 then BitVec.ofNat 8 (q.toNat - 4)
  else if q.toNat = 62 then 0x2B#8
  else 0x2F#8

/-- INV64: the class of a code, by the ranges of R87. -/
def inv64 (c : Byte) : Class64 :=
  if 0x41 ≤ c.toNat ∧ c.toNat ≤ 0x5A then .val (BitVec.ofNat 6 (c.toNat - 0x41))
  else if 0x61 ≤ c.toNat ∧ c.toNat ≤ 0x7A then .val (BitVec.ofNat 6 (c.toNat - 0x47))
  else if 0x30 ≤ c.toNat ∧ c.toNat ≤ 0x39 then .val (BitVec.ofNat 6 (c.toNat + 4))
  else if c.toNat = 0x2B then .val 62#6
  else if c.toNat = 0x2F then .val 63#6
  else if c.toNat = 0x3D then .pad
  else .invalid

/-- val64: the value of a code in bit arithmetic; 0 for `=`, and not used for an invalid code (R87, R131). -/
def val64 (c : Byte) : BitVec 6 :=
  match inv64 c with
  | .val v => v
  | .pad => 0
  | .invalid => 0

/-- LUT16: the symbol code of a nibble (R88). -/
def lut16 (q : BitVec 4) : Byte :=
  if q.toNat ≤ 9 then BitVec.ofNat 8 (0x30 + q.toNat) else BitVec.ofNat 8 (0x37 + q.toNat)

/-- INV16: the class of a code, by the ranges of R89. -/
def inv16 (c : Byte) : Class16 :=
  if 0x30 ≤ c.toNat ∧ c.toNat ≤ 0x39 then .val (BitVec.ofNat 4 (c.toNat - 0x30))
  else if 0x41 ≤ c.toNat ∧ c.toNat ≤ 0x46 then .val (BitVec.ofNat 4 (c.toNat - 0x37))
  else .invalid

/-- The value of a code in Base16; not used for an invalid code (R161). -/
def val16 (c : Byte) : BitVec 4 :=
  match inv16 c with
  | .val v => v
  | .invalid => 0

end Sys2Proof.Machine
end

