-- ==== Sys2Proof/Machine/Base16.lean ====
section
/-! DEFINITION. The Base16 family: the units U16E and U16D, the transforms B16Enc and B16Dec, and the meanings of B16ENC and
B16DEC (43_base16_encode.md, 44_base16_decode.md). -/

namespace Sys2Proof.Machine

/-! ## U16E and B16ENC -/

/-- The unit U16E (R150, R151): the symbols of the high nibble, then of the low nibble (R84). -/
def u16e (b : Byte) : Byte × Byte := (lut16 (b.extractLsb' 4 4), lut16 (b.extractLsb' 0 4))

/-- B16Enc (R152): two symbols for each byte, in sequence order. -/
def b16Enc : List Byte → List Byte
  | [] => []
  | b :: rest => (u16e b).1 :: (u16e b).2 :: b16Enc rest

/-- B16ENC (R152): the engine encodes its input and commits; it never fails (R155). -/
def execB16enc (s : State) : Host.Outcome State Fault Refusal :=
  .next (commitOk (b16Enc (input s)) s)

/-! ## U16D and B16DEC -/

/-- The outputs of the unit U16D (R160). -/
structure U16dOut where
  err : Bool
  b : Byte
  deriving DecidableEq, Repr

/-- The unit U16D (R161, R162). -/
def u16d (h l : Byte) : U16dOut :=
  if inv16 h = .invalid ∨ inv16 l = .invalid then { err := true, b := Config.u16dErrByte h l }
  else { err := false, b := val16 h ++ val16 l }

/-- The pair loop of B16Dec (R163). -/
def b16DecPairs : List Byte → List Byte
  | h :: l :: rest => (u16d h l).b :: b16DecPairs rest
  | _ => []

/-- B16Dec (R163): the length test (R164), then the test of all n symbols (R165), then the pair loop. -/
def b16Dec (inp : List Byte) : Result :=
  if inp.length % 2 ≠ 0 then .err .invalidLength
  else if inp.any (fun c => inv16 c == .invalid) then .err .invalidCharacter
  else .ok (b16DecPairs inp)

/-- B16DEC (R163): the engine decodes its input and commits the bytes or the error. -/
def execB16dec (s : State) : Host.Outcome State Fault Refusal :=
  .next (commit (b16Dec (input s)) s)

end Sys2Proof.Machine
end

