-- ==== Sys2Proof/Machine/Base64.lean ====
section
/-! DEFINITION. The Base64 family: the units U64E and U64D, the transforms B64Enc and B64Dec, and the meanings of B64ENC and
B64DEC (41_base64_encode.md, 42_base64_decode.md). -/

namespace Sys2Proof.Machine

/-! ## U64E and B64ENC -/

/-- The unit U64E (R120 to R122): the four symbols of a group of which `k` bytes are valid. -/
def u64e (b0 b1 b2 : Byte) (k : BitVec 2) : Byte × Byte × Byte × Byte :=
  if k = 0 then Config.u64eCountZero b0 b1 b2
  else
    let c1 : Byte := if 2 ≤ k.toNat then b1 else 0x00#8
    let c2 : Byte := if k = 3 then b2 else 0x00#8
    let q0 : BitVec 6 := b0.extractLsb' 2 6
    let q1 : BitVec 6 := b0.extractLsb' 0 2 ++ c1.extractLsb' 4 4
    let q2 : BitVec 6 := c1.extractLsb' 0 4 ++ c2.extractLsb' 6 2
    let q3 : BitVec 6 := c2.extractLsb' 0 6
    (lut64 q0, lut64 q1, if 2 ≤ k.toNat then lut64 q2 else padCode, if k = 3 then lut64 q3 else padCode)

/-- The four symbols of a group as a sequence (R124). -/
def u64eSymbols (b0 b1 b2 : Byte) (k : BitVec 2) : List Byte :=
  let (s0, s1, s2, s3) := u64e b0 b1 b2 k
  [s0, s1, s2, s3]

/-- B64Enc (R123, R124): full groups of three bytes, then one partial group of the one or two bytes left, its missing bytes
read as zero. -/
def b64Enc : List Byte → List Byte
  | [] => []
  | [b0] => u64eSymbols b0 0x00#8 0x00#8 1
  | [b0, b1] => u64eSymbols b0 b1 0x00#8 2
  | b0 :: b1 :: b2 :: rest => u64eSymbols b0 b1 b2 3 ++ b64Enc rest

/-- B64ENC (R123): the engine encodes its input and commits; it never fails (R128). -/
def execB64enc (s : State) : Host.Outcome State Fault Refusal :=
  .next (commitOk (b64Enc (input s)) s)

/-! ## U64D and B64DEC -/

/-- The outputs of the unit U64D (R130). -/
structure U64dOut where
  err : Bool
  b0 : Byte
  b1 : Byte
  b2 : Byte
  k : BitVec 2
  fin : Bool
  deriving DecidableEq, Repr

/-- The unit U64D (R131 to R137). -/
def u64d (s0 s1 s2 s3 : Byte) : U64dOut :=
  if inv64 s0 = .invalid ∨ inv64 s1 = .invalid ∨ inv64 s2 = .invalid ∨ inv64 s3 = .invalid then
    let (b0, b1, b2) := Config.u64dErrBytes s0 s1 s2 s3
    { err := true, b0 := b0, b1 := b1, b2 := b2,
      k := Config.u64dErrCount s0 s1 s2 s3, fin := Config.u64dErrFin s0 s1 s2 s3 }
  else
    let v0 := val64 s0
    let v1 := val64 s1
    let v2 := val64 s2
    let v3 := val64 s3
    { err := false
      b0 := v0 ++ v1.extractLsb' 4 2
      b1 := v1.extractLsb' 0 4 ++ v2.extractLsb' 2 4
      b2 := v2.extractLsb' 0 2 ++ v3
      k := if s2 = padCode then 1 else if s3 = padCode then 2 else 3
      fin := if s2 = padCode then true else if s3 = padCode then true else false }

/-- The bytes a group emits: [b0, b1, b2][0 .. k-1] (R134, R138). -/
def u64dBytes (o : U64dOut) : List Byte := [o.b0, o.b1, o.b2].take o.k.toNat

/-- The group loop of B64Dec (R138): four symbols at a time, ending after a terminating group (R141). -/
def b64DecGroups : List Byte → List Byte
  | s0 :: s1 :: s2 :: s3 :: rest =>
    u64dBytes (u64d s0 s1 s2 s3) ++ (if (u64d s0 s1 s2 s3).fin then [] else b64DecGroups rest)
  | _ => []

/-- B64Dec (R138): the length test (R139), then the test of all n symbols (R140), then the group loop. -/
def b64Dec (inp : List Byte) : Result :=
  if inp.length % 4 ≠ 0 then .err .invalidLength
  else if inp.any (fun c => inv64 c == .invalid) then .err .invalidCharacter
  else .ok (b64DecGroups inp)

/-- B64DEC (R138): the engine decodes its input and commits the bytes or the error. -/
def execB64dec (s : State) : Host.Outcome State Fault Refusal :=
  .next (commit (b64Dec (input s)) s)

end Sys2Proof.Machine
end

