-- ==== Sys2Proof/Machine/Dispatch.lean ====
section
/-! DEFINITION. exec: the run and the commit of one accepted command (40_command_engine.md R104, R106, R107), one arm for each
constructor of Instr. -/

namespace Sys2Proof.Machine

def exec (i : Instr) (s : State) : Host.Outcome State Fault Refusal :=
  match i with
  | .b64enc => Sys2Proof.Machine.execB64enc s
  | .b64dec => Sys2Proof.Machine.execB64dec s
  | .b16enc => Sys2Proof.Machine.execB16enc s
  | .b16dec => Sys2Proof.Machine.execB16dec s

end Sys2Proof.Machine
end

