-- ==== Sys2Proof/Machine/Engine.lean ====
section
/-! DEFINITION. The engine's steps before its commit (R21, R104, R113): one group a step, with the working registers ipos,
opos and the group latch. They change nothing a host can see (R104); the commit itself is `exec` (R79). -/

namespace Sys2Proof.Machine

/-- The transform function F of R104. -/
def transform (i : Instr) (inp : List Byte) : Result :=
  match i with
  | .b64enc => .ok (b64Enc inp)
  | .b64dec => b64Dec inp
  | .b16enc => .ok (b16Enc inp)
  | .b16dec => b16Dec inp

/-- The group size of an operation (R21, R90). -/
def groupSize : Instr → Nat
  | .b64enc => 3
  | .b64dec => 4
  | .b16enc => 1
  | .b16dec => 2

/-- What the group loop of an operation emits for a run of input elements (R123, R138, R152, R163). -/
def emit (i : Instr) (inp : List Byte) : List Byte :=
  match i with
  | .b64enc => b64Enc inp
  | .b64dec => b64DecGroups inp
  | .b16enc => b16Enc inp
  | .b16dec => b16DecPairs inp

/-- The group in the latch is a terminating group of B64DEC (R134). -/
def latchFin (s : State) : Bool :=
  match s.latch with
  | [s0, s1, s2, s3] => (u64d s0 s1 s2 s3).fin
  | _ => false

/-- The group loop has ended: the input is used up, or a terminating group of B64DEC has been taken (R113, R141). -/
def loopEnded (s : State) : Bool :=
  decide (s.en.toNat ≤ s.ipos.toNat) || (opInstr s.eop == .b64dec && latchFin s)

/-- The group that starts at ipos: the next elements of the input, at most one group (R90, R124). -/
def nextGroup (s : State) : List Byte := ((input s).drop s.ipos.toNat).take (groupSize (opInstr s.eop))

/-- Take one group: the latch holds it, ipos moves past it (R21) and opos past what it emits. -/
def takeGroup (s : State) : State :=
  let g := nextGroup s
  { s with
    latch := g
    ipos := s.ipos + BitVec.ofNat 17 g.length
    opos := s.opos + BitVec.ofNat 18 (emit (opInstr s.eop) g).length }

/-- One engine step before the commit (R104, R113). An input that fails the length test or the test of its symbols never
enters the group loop; once the loop has ended nothing is left to do but the commit. -/
def workStep (s : State) : State :=
  match s.phase with
  | .idle => s
  | .run =>
    match transform (opInstr s.eop) (input s) with
    | .err _ => s
    | .ok _ => if loopEnded s then s else takeGroup s

end Sys2Proof.Machine
end

