-- ==== Sys2Proof/Machine/Step.lean ====
section
/-! DEFINITION. One step: the agent whose turn it is moves once (R19, R70, R72). When no turn is listed, a running engine
commits (fairness, R110) and an idle block stays as it is (R190). -/

namespace Sys2Proof.Machine

/-- The engine's commit turn: the accepted command, as latched in eop, is executed (R104, R106, R107); an idle engine does
nothing. -/
def engineCommit (s : State) : Host.Outcome State Fault Refusal :=
  match s.phase with
  | .idle => .next s
  | .run => exec (opInstr s.eop) s

def step (s : State) : Host.Outcome State Fault Refusal :=
  match s.turns with
  | [] => engineCommit s
  | .host a :: _ => hostAccess a s.dropTurn
  | .engineWork :: _ => .next (workStep s.dropTurn)
  | .engineCommit :: _ => engineCommit s.dropTurn
  | .resetOn :: _ => .next (applyReset s.dropTurn)
  | .resetOff :: _ => .next (releaseReset s.dropTurn)

/-- `s` with the command word `w` issued, so that the very next step runs exactly it (log entry 13): the state a host write
of `w` to CMD leaves (R101 to R103) on an idle block whose reset input is released, with no other turn before the engine's
commit. A stored length that no command can have (larger than IBUF_SIZE, R102) is replaced by 0. -/
def State.withFetchWord (s : State) (nbits w : Nat) : State :=
  let cmd := BitVec.ofNat 32 (w % 2 ^ nbits)
  issue cmd
    { s with
      cmd := cmd, phase := .idle, resetPin := false, turns := []
      inLen := if lengthWellFormed s.cfg s.inLen then s.inLen else 0 }

end Sys2Proof.Machine
end

