-- ==== Sys2Proof/Machine/Script.lean ====
section
/-! DEFINITION. The host-script notation (30_encoding.md R96, R97): what the host does at one copy of the block. It is not an
instruction set of the block (R96), and its temporaries are not state of the block, so they stand outside State. Each bus
access of a script is one host turn of the machine. -/

namespace Sys2Proof.Machine

/-- A host temporary, t0 to t7 (R96). -/
abbrev Tmp := Fin 8

/-- The operand x of a store: an immediate or a temporary (R96). -/
inductive ScriptVal where
  | imm (z : Int)
  | tmp (t : Tmp)
  deriving DecidableEq, Repr

/-- A script offset: a symbol plus an optional immediate, plus an optional temporary (R96). -/
structure ScriptOff where
  base : Nat
  idx : Option Tmp
  deriving DecidableEq, Repr

/-- One line of a script (R96). `n` is the size: 1 for sb and lb, 2 for sh and lh, 4 for sw and lw. -/
inductive ScriptOp where
  | store (n : Nat) (off : ScriptOff) (x : ScriptVal)
  | load (n : Nat) (d : Tmp) (off : ScriptOff)
  | li (d : Tmp) (imm : Int)
  | addi (d s : Tmp) (imm : Int)
  | andi (d s : Tmp) (imm : Int)
  | label (l : Nat)
  | bnez (s : Tmp) (l : Nat)
  | beqz (s : Tmp) (l : Nat)
  | blt (a b : Tmp) (l : Nat)
  | halt
  deriving DecidableEq, Repr

/-- Why a script stops, besides a bus error. -/
inductive ScriptStop where
  /-- The block refused the access (R200). Safe. -/
  | refused (r : Refusal)
  /-- The offset lies outside the block's 18-bit space: not this block's concern (R50, R51). Safe. -/
  | offBlock (z : Int)
  /-- A branch names a label the script does not have. Safe. -/
  | noLabel (l : Nat)
  /-- The script ran past its last line without `halt`. Safe. -/
  | noLine
  deriving DecidableEq, Repr

/-- The host running a script at one copy of the block. -/
structure HostState where
  machine : State
  pc : Nat
  temps : Vector Int 8
  halted : Bool
  deriving DecidableEq, Repr

/-- The start of a script on a machine: temporaries 0 (95_test_vectors.md L3). -/
def HostState.start (s : State) : HostState := { machine := s, pc := 0, temps := Vector.replicate 8 0, halted := false }

def HostState.get (h : HostState) (t : Tmp) : Int := h.temps.get t

def HostState.put (h : HostState) (t : Tmp) (z : Int) : HostState := { h with temps := h.temps.set t z }

def HostState.advance (h : HostState) : HostState := { h with pc := h.pc + 1 }

/-- The line a label stands on. -/
def findLabel : List ScriptOp → Nat → Option Nat
  | [], _ => none
  | .label k :: rest, l => if k = l then some 0 else (findLabel rest l).map (· + 1)
  | _ :: rest, l => (findLabel rest l).map (· + 1)

/-- The value of a store's operand. -/
def HostState.val (h : HostState) : ScriptVal → Int
  | .imm z => z
  | .tmp t => h.get t

/-- The integer offset of a script offset. -/
def HostState.offset (h : HostState) (o : ScriptOff) : Int :=
  match o.idx with
  | none => o.base
  | some t => o.base + h.get t

/-- The outcome of one move of a script. -/
abbrev ScriptOutcome := Host.Outcome HostState Fault ScriptStop

/-- One bus access of the script: the host's turn of the machine, put before every other turn. -/
def HostState.bus (h : HostState) (o : ScriptOff) (mk : Offset → Access) (k : HostState → HostState) : ScriptOutcome :=
  let z := h.offset o
  if 0 ≤ z ∧ z < 0x40000 then
    match step { h.machine with turns := .host (mk (BitVec.ofInt 18 z)) :: h.machine.turns } with
    | .next t => .next (k { h with machine := t }).advance
    | .fault r => .fault r
    | .refused r => .refused (.refused r)
  else .refused (.offBlock z)

/-- A jump to a label. -/
def HostState.jump (script : List ScriptOp) (h : HostState) (l : Nat) : ScriptOutcome :=
  match findLabel script l with
  | some pc => .next { h with pc := pc }
  | none => .refused (.noLabel l)

/-- One line of a script (R96): loads zero-extend into the temporary, stores move the low bits of the value, `blt` compares
integers as signed. -/
def scriptLine (script : List ScriptOp) (h : HostState) (op : ScriptOp) : ScriptOutcome :=
  match op with
  | .store n off x => h.bus off (fun o => .write o n (BitVec.ofInt 32 (h.val x % (2 ^ (8 * n) : Nat)))) id
  | .load n d off =>
    h.bus off (fun o => .read o n) (fun h' => h'.put d ((h'.machine.readData.getD 0).toNat : Int))
  | .li d imm => .next (h.put d imm).advance
  | .addi d s imm => .next (h.put d (h.get s + imm)).advance
  | .andi d s imm => .next (h.put d (Int.land (h.get s) imm)).advance
  | .label _ => .next h.advance
  | .bnez s l => if h.get s ≠ 0 then h.jump script l else .next h.advance
  | .beqz s l => if h.get s = 0 then h.jump script l else .next h.advance
  | .blt a b l => if h.get a < h.get b then h.jump script l else .next h.advance
  | .halt => .next { h with halted := true }

/-- The host's move: its current line; a halted script stays as it is (R112). -/
def scriptStep (script : List ScriptOp) (h : HostState) : ScriptOutcome :=
  if h.halted then .next h
  else
    match script[h.pc]? with
    | some op => scriptLine script h op
    | none => .refused .noLine

/-- The block's move between two lines of the script: its own next step (R72, R110). -/
def blockStep (h : HostState) : ScriptOutcome :=
  match step h.machine with
  | .next t => .next { h with machine := t }
  | .fault r => .fault r
  | .refused r => .refused (.refused r)

/-! ## The pseudo-instructions of R97, each the list of lines it expands to -/

/-- The symbols of R96 as offsets. -/
def symCmd : ScriptOff := ⟨0x000, none⟩
def symStatus : ScriptOff := ⟨0x004, none⟩
def symInLen : ScriptOff := ⟨0x008, none⟩
def symOutLen : ScriptOff := ⟨0x00C, none⟩
def symIbuf (k : Nat) (t : Option Tmp) : ScriptOff := ⟨0x10000 + k, t⟩
def symObuf (k : Nat) (t : Option Tmp) : ScriptOff := ⟨0x20000 + k, t⟩

/-- `cmd OP` (R97). -/
def scriptCmd (i : Instr) : List ScriptOp := [.store 4 symCmd (.imm (encode i).toNat)]

/-- `poll` with the fresh label `l` (R97): t7 = 0 afterwards. -/
def scriptPoll (l : Nat) : List ScriptOp := [.label l, .load 4 7 symStatus, .andi 7 7 1, .bnez 7 l]

/-- `run OP, n` with the fresh label `l` (R97). -/
def scriptRun (i : Instr) (n : ScriptVal) (l : Nat) : List ScriptOp :=
  .store 4 symInLen n :: scriptCmd i ++ scriptPoll l

/-- `ldbytes k, [x0, ..., xm]` (R97); `ldstr` is the same with the codes of its characters (R16). -/
def scriptLdbytes : Nat → List Byte → List ScriptOp
  | _, [] => []
  | k, x :: xs => .store 1 (symIbuf k none) (.imm x.toNat) :: scriptLdbytes (k + 1) xs

/-- `copyout` with the fresh labels `lc`, `lb` and `le` (R97). -/
def scriptCopyout (lc lb le : Nat) : List ScriptOp :=
  [.load 4 6 symOutLen, .li 5 0, .label lc, .blt 5 6 lb, .beqz 7 le, .label lb,
   .load 1 4 (symObuf 0 (some 5)), .store 1 (symIbuf 0 (some 5)) (.tmp 4), .addi 5 5 1, .beqz 7 lc, .label le]

end Sys2Proof.Machine
end

