-- ==== Sys2Proof/Machine/System.lean ====
section
/-! DEFINITION. Several copies of the block on one bus (00_scope.md R11, R12; 20_memory.md R51, R74; 60_exceptions.md R187,
R188). N_INSTANCES and BASE[i] are OPEN parameters of the spec; here they are data: the length of a list, and a field of its
entries (log entry 11). -/

namespace Sys2Proof.Machine

/-- One copy of the block at its BASE (R12, R188). -/
structure Slot where
  base : Nat
  st : State
  deriving DecidableEq, Repr

/-- The copies of the block on the bus (R11). -/
structure System where
  slots : List Slot
  deriving DecidableEq, Repr

/-- The size of one copy's offset space (R50, R51). -/
def blockSpan : Nat := 0x40000

/-- At least one copy (R11); every BASE a multiple of 0x40000, one for each copy, so that no two ranges overlap (R12). DESIGN
CHOICE: the copies may differ in IBUF_SIZE, which R9 writes without an index and does not say to be one size for all; each keeps
its own in its `State.cfg` (log entry 19). -/
abbrev System.wf (sys : System) : Prop :=
  sys.slots ≠ [] ∧ (∀ c ∈ sys.slots, c.base % blockSpan = 0) ∧ (sys.slots.map Slot.base).Nodup

/-- The bus address reaches the copy in this slot (R51). -/
abbrev Slot.reaches (c : Slot) (addr : Nat) : Prop := c.base ≤ addr ∧ addr < c.base + blockSpan

/-- Which of the copies a bus address reaches, and at which block offset; none for an address in no copy's range (R51). -/
def routeIn : List Slot → Nat → Option (Nat × Offset)
  | [], _ => none
  | c :: rest, addr =>
    if c.reaches addr then some (0, BitVec.ofNat 18 (addr - c.base))
    else (routeIn rest addr).map fun r => (r.1 + 1, r.2)

/-- The routing of the whole bus (R51). -/
def System.route (sys : System) (addr : Nat) : Option (Nat × Offset) := routeIn sys.slots addr

/-- One operation on the bus, before it is routed: a read of `n` bytes, or a write of the low 8·n bits of `v`. -/
inductive BusOp where
  | read (n : Nat)
  | write (n : Nat) (v : Word)
  deriving DecidableEq, Repr

/-- The block access a bus operation becomes at an offset. -/
def BusOp.at (op : BusOp) (off : Offset) : Access :=
  match op with
  | .read n => .read off n
  | .write n v => .write off n v

/-- Let copy `k` change its state by `f`; the others keep theirs (R188). -/
def System.updateSlot (sys : System) (k : Nat) (f : State → Host.Outcome State Fault Refusal) :
    Host.Outcome System Fault Refusal :=
  match sys.slots[k]? with
  | none => .next sys
  | some c =>
    match f c.st with
    | .next t => .next { slots := sys.slots.set k { c with st := t } }
    | .fault r => .fault r
    | .refused r => .refused r

/-- Copy `k` takes its next step; the copies run concurrently and independently (R188). -/
def System.stepAt (sys : System) (k : Nat) : Host.Outcome System Fault Refusal := sys.updateSlot k step

/-- A bus operation at a bus address is one host access to the copy it reaches. An address in no copy's range is not the
block's concern (R51): nothing happens. -/
def System.access (sys : System) (addr : Nat) (op : BusOp) : Host.Outcome System Fault Refusal :=
  match sys.route addr with
  | none => .next sys
  | some (k, off) => sys.updateSlot k (hostAccess (op.at off))

end Sys2Proof.Machine
end

