-- ==== Sys2Proof/Safety.lean ====
section
/-! DEFINITION. What counts as a safe run, in the terms the statements use: the invariants of the machine, the engine's group
loop, and the host's duties (40_command_engine.md R115; 70_reset_and_hazards.md R208 to R217). -/

namespace Sys2Proof.Machine

/-! ## Invariants: what holds at reset and is kept by every step -/

/-- Both buffers are in canonical form and list only cells that exist (R33, R34). -/
abbrev BuffersLegal (s : State) : Prop :=
  Memory.wf s.ibuf = true ∧ Memory.wf s.obuf = true
    ∧ Memory.below s.cfg.ibufSize s.ibuf = true ∧ Memory.below s.cfg.obufSize s.obuf = true

/-- STATUS: BUSY excludes every other bit, ERR and REJ stand only with DONE, ERR and REJ exclude each other, ERR is never 3
(R26, R30, R31, R32). -/
abbrev StatusLegal (s : State) : Prop :=
  (s.phase = .run → s.done = false) ∧ (s.done = false → s.err = 0 ∧ s.rej = false)
    ∧ (s.rej = true → s.err = 0) ∧ s.err ≠ 3

/-- While the engine runs, its latched operation and length are those of CMD and IN_LEN, the length fits IBUF, ipos does not
exceed it, and OUT_LEN is 0 (R21, R103, R108). -/
abbrev RunLegal (s : State) : Prop :=
  s.phase = .run →
    s.cmd = 0#30 ++ s.eop ∧ s.en = s.inLen ∧ s.en.toNat ≤ s.cfg.ibufSize ∧ s.ipos.toNat ≤ s.en.toNat ∧ s.outLen = 0

/-- OUT_LEN fits OBUF, is not 0 only after a success, and counts cells that are defined (R28, R34, R106). -/
abbrev OutputLegal (s : State) : Prop :=
  s.outLen.toNat ≤ s.cfg.obufSize ∧ (s.outLen ≠ 0 → s.done = true ∧ s.err = 0 ∧ s.rej = false)
    ∧ ∀ j < s.outLen.toNat, (Memory.get? s.obuf j).isSome = true

/-- The group latch holds at most four bytes (R20). -/
abbrev LatchLegal (s : State) : Prop := s.latch.length ≤ 4

/-- The draws that fix the unspecified cells lie in the past, so the next draw is fresh (log entry 5). -/
abbrev DrawsLegal (s : State) : Prop := s.ibufDraw < s.draw ∧ s.obufDraw < s.draw

/-- While the reset input is applied, the registers and buffers are in the reset state (R200 to R203). -/
abbrev ResetLegal (s : State) : Prop :=
  s.resetPin = true →
    s.cmd = 0 ∧ s.done = false ∧ s.err = 0 ∧ s.rej = false ∧ s.inLen = 0 ∧ s.outLen = 0
      ∧ s.ibuf = [] ∧ s.obuf = [] ∧ s.phase = .idle

/-- The invariant of the machine. -/
abbrev State.Inv (s : State) : Prop :=
  BuffersLegal s ∧ StatusLegal s ∧ RunLegal s ∧ OutputLegal s ∧ LatchLegal s ∧ DrawsLegal s ∧ ResetLegal s

/-! ## The engine's group loop -/

/-- What the loop has emitted for the elements before ipos. -/
def emitted (s : State) : List Byte := emit (opInstr s.eop) ((input s).take s.ipos.toNat)

/-- The group loop of a running command is where its working registers say (R21, R113): opos counts what the elements before
ipos emit; while the loop has not ended, whatever follows is emitted after it; when it has ended, the whole output of the
transform has been emitted. A command whose input is in error has taken no group. -/
def LoopLegal (s : State) : Prop :=
  s.phase = .run →
    match transform (opInstr s.eop) (input s) with
    | .err _ => s.ipos = 0 ∧ s.opos = 0
    | .ok out =>
      s.opos.toNat = (emitted s).length
        ∧ (loopEnded s = false → ∀ rest : List Byte,
            emit (opInstr s.eop) ((input s).take s.ipos.toNat ++ rest) = emitted s ++ emit (opInstr s.eop) rest)
        ∧ (loopEnded s = true → emitted s = out)

/-! ## The host's duties -/

/-- Every IBUF cell a command of length `n` uses has been written since reset (R208, R215). -/
def inputWritten (s : State) (n : Nat) : Bool := (List.range n).all fun i => (Memory.get? s.ibuf i).isSome

/-- What the host may do at the block (R115, R208, R210 to R212, R214, R215): supported accesses only; no access while reset is
applied; writes to CMD, IN_LEN and IBUF, and reads of OUT_LEN and OBUF, only while BUSY = 0; a command word with RSVD = 0,
after the whole input has been written; and only OBUF[0 .. OUT_LEN.LEN - 1] is read.

DESIGN CHOICE (log entry 20). The host table is silent on writes to STATUS, OUT_LEN, reserved words and OBUF, on reads of
reserved words, and on reads of CMD and IN_LEN while BUSY = 1; they are allowed here, since R54, R68 and R69 give them an effect
that harms nothing. A read of an IBUF cell nobody has written, and a CMD write with IN_LEN.LEN > IBUF_SIZE, have an effect too
(R65, R102); they are not allowed here. One access at one state is judged, so no duty of order is asked (the poll of R210, R217). -/
def hostDuty (a : Access) (s : State) : Bool :=
  !s.resetPin &&
    match a with
    | .read off n =>
      match busTarget s.cfg off n with
      | none => false
      | some (.reg o) => o != 0x00C || !s.busy
      | some (.ibuf a) => (List.range n).all fun k => (Memory.get? s.ibuf (a + k)).isSome
      | some (.obuf a) => !s.busy && decide (a + n ≤ s.outLen.toNat)
    | .write off n v =>
      match busTarget s.cfg off n with
      | none => false
      | some (.reg o) =>
        if o = 0x000 then
          !s.busy && cmdWordWellFormed v && lengthWellFormed s.cfg s.inLen && inputWritten s s.inLen.toNat
        else o != 0x008 || !s.busy
      | some (.ibuf _) => !s.busy
      | some (.obuf _) => true

end Sys2Proof.Machine
end

