-- ==== Sys2Proof/Certificates/Slice0/Obligations.lean ====
section
/-! DEFINITION. The statements for the provers, each from the spec's numbered rules; OBLIGATIONS.json lists them. -/

open Sys2Proof Sys2Proof.Machine

/-! ## Encoding -/

/-- Decode and encode agree, both ways (30_encoding.md section 3): decoding the encoded word of a well-formed command gives the
command, and a word that decodes to a command is that command's encoding, so no bit of a word is dropped. -/
def Obligations.DecodeAndEncodeAgree : Prop :=
  (∀ i : Instr, i.wellFormed = true → decodeWord (encode i) = .ok i)
    ∧ ∀ (w : Word) (i : Instr), decodeWord w = .ok i → encode i = w

/-- R91: over all 2^32 words, exactly the four words of the opcode map decode, each to its command, and a word is rejected
exactly when its bits [31:2] are not all zero. -/
def Obligations.DecoderAcceptsExactlyTheFourWords : Prop :=
  ∀ w : Word,
    (decodeWord w = .ok .b64enc ↔ w = 0x00000000#32)
      ∧ (decodeWord w = .ok .b64dec ↔ w = 0x00000001#32)
      ∧ (decodeWord w = .ok .b16enc ↔ w = 0x00000002#32)
      ∧ (decodeWord w = .ok .b16dec ↔ w = 0x00000003#32)
      ∧ (decodeWord w = .error (.reservedNotZero w) ↔ w.extractLsb' 2 30 ≠ 0#30)

/-- R82, R91: the four words of the opcode map, written out, decode to their commands. -/
def Obligations.OpcodeMapWordsDecode : Prop :=
  decodeWord 0x00000000#32 = .ok .b64enc ∧ decodeWord 0x00000001#32 = .ok .b64dec
    ∧ decodeWord 0x00000002#32 = .ok .b16enc ∧ decodeWord 0x00000003#32 = .ok .b16dec
    ∧ decodeTableWord 32 0 = some .b64enc ∧ decodeTableWord 32 1 = some .b64dec
    ∧ decodeTableWord 32 2 = some .b16enc ∧ decodeTableWord 32 3 = some .b16dec
    ∧ decodeWord 0x00000004#32 = .error (.reservedNotZero 0x00000004#32)

/-! ## Tables -/

/-- LUT64 and INV64 (30_encoding.md section 1): LUT64[i] by the formula of its rule, index by index; a code has the class Val(v)
exactly when it is LUT64[v], Pad exactly when it is 0x3D, and every other code, 191 of the 256, is Invalid. The spec writes 177
= 256 − 64 − 1; its ranges and its grid give 191 (log entry 14). -/
def Obligations.Inv64InvertsLut64 : Prop :=
  (∀ i : BitVec 6,
      (i.toNat ≤ 25 → (lut64 i).toNat = 0x41 + i.toNat)
        ∧ (26 ≤ i.toNat → i.toNat ≤ 51 → (lut64 i).toNat = 0x47 + i.toNat)
        ∧ (52 ≤ i.toNat → i.toNat ≤ 61 → (lut64 i).toNat = i.toNat - 4)
        ∧ (i.toNat = 62 → (lut64 i).toNat = 0x2B)
        ∧ (i.toNat = 63 → (lut64 i).toNat = 0x2F))
    ∧ (∀ (c : Byte) (v : BitVec 6), inv64 c = .val v ↔ c = lut64 v)
    ∧ (∀ c : Byte, inv64 c = .pad ↔ c = 0x3D#8)
    ∧ ((List.range 256).filter fun c => inv64 (BitVec.ofNat 8 c) == .invalid).length = 191

/-- LUT16 and INV16 (30_encoding.md section 1): LUT16[i] by the formula of its rule, index by index; a code has the class Val(v)
exactly when it is LUT16[v], and 240 codes are Invalid, lowercase and `=` among them. -/
def Obligations.Inv16InvertsLut16 : Prop :=
  (∀ i : BitVec 4,
      (i.toNat ≤ 9 → (lut16 i).toNat = 0x30 + i.toNat) ∧ (10 ≤ i.toNat → (lut16 i).toNat = 0x37 + i.toNat))
    ∧ (∀ (c : Byte) (v : BitVec 4), inv16 c = .val v ↔ c = lut16 v)
    ∧ ((List.range 256).filter fun c => inv16 (BitVec.ofNat 8 c) == .invalid).length = 240
    ∧ (∀ c : Byte, 0x61 ≤ c.toNat → c.toNat ≤ 0x66 → inv16 c = .invalid)
    ∧ inv16 0x3D#8 = .invalid

/-! ## Units -/

/-- R83, R121: U64E reads its group as the 24-bit value G = {b0, b1, b2} and maps its four sextets, most significant first;
missing bytes are zero and missing symbols are `=`. -/
def Obligations.U64eMapsTheSextetsOfTheGroup : Prop :=
  ∀ b0 b1 b2 : Byte,
    (let G : BitVec 24 := b0 ++ b1 ++ b2
     u64e b0 b1 b2 3 =
      (lut64 (G.extractLsb' 18 6), lut64 (G.extractLsb' 12 6), lut64 (G.extractLsb' 6 6), lut64 (G.extractLsb' 0 6)))
    ∧ (let G : BitVec 24 := b0 ++ b1 ++ 0x00#8
       u64e b0 b1 b2 2 = (lut64 (G.extractLsb' 18 6), lut64 (G.extractLsb' 12 6), lut64 (G.extractLsb' 6 6), 0x3D#8))
    ∧ (let G : BitVec 24 := b0 ++ 0x00#8 ++ 0x00#8
       u64e b0 b1 b2 1 = (lut64 (G.extractLsb' 18 6), lut64 (G.extractLsb' 12 6), 0x3D#8, 0x3D#8))

/-- The corner cases of U64E (41_base64_encode.md section 1), which the spec marks as its own inference: a partial group's
symbols do not depend on the missing bytes; for one byte the second symbol is `A`, `Q`, `g` or `w`. -/
def Obligations.U64eIgnoresMissingBytes : Prop :=
  ∀ b0 b1 b2 c1 c2 : Byte,
    u64e b0 b1 b2 1 = u64e b0 c1 c2 1 ∧ u64e b0 b1 b2 2 = u64e b0 b1 c2 2
      ∧ (u64e b0 b1 b2 1).2.1 ∈ ([0x41#8, 0x51#8, 0x67#8, 0x77#8] : List Byte)

/-- U64D's bytes equal the source's shift formulas for every four 6-bit values (42_base64_decode.md section 1), computed here
on natural numbers, so that no bit is lost. Each symbol is LUT64[v], or `=` in any of the four positions, whose value is 0. -/
def Obligations.U64dEqualsTheShiftFormulas : Prop :=
  ∀ (s0 s1 s2 s3 : Byte) (v0 v1 v2 v3 : BitVec 6),
    (s0 = lut64 v0 ∨ s0 = 0x3D#8 ∧ v0 = 0) → (s1 = lut64 v1 ∨ s1 = 0x3D#8 ∧ v1 = 0) →
    (s2 = lut64 v2 ∨ s2 = 0x3D#8 ∧ v2 = 0) → (s3 = lut64 v3 ∨ s3 = 0x3D#8 ∧ v3 = 0) →
      let o := u64d s0 s1 s2 s3
      o.err = false
        ∧ o.b0.toNat = (v0.toNat <<< 2) ||| (v1.toNat >>> 4)
        ∧ o.b1.toNat = ((v1.toNat &&& 0xF) <<< 4) ||| (v2.toNat >>> 2)
        ∧ o.b2.toNat = ((v2.toNat &&& 0x3) <<< 6) ||| v3.toNat

/-- R134 (with the meaning of err, R131): the third symbol, then the fourth, decides how many bytes the group emits, whether it
terminates, and whether decoding goes on to the next group. -/
def Obligations.U64dTerminationFollowsThirdThenFourthSymbol : Prop :=
  ∀ s0 s1 s2 s3 : Byte,
    let o := u64d s0 s1 s2 s3
    (o.err = true ↔ inv64 s0 = .invalid ∨ inv64 s1 = .invalid ∨ inv64 s2 = .invalid ∨ inv64 s3 = .invalid)
    ∧ (o.err = false → ∀ rest : List Byte,
        (s2 = 0x3D#8 → o.k = 1 ∧ o.fin = true ∧ b64DecGroups (s0 :: s1 :: s2 :: s3 :: rest) = [o.b0])
        ∧ (s2 ≠ 0x3D#8 → s3 = 0x3D#8 →
            o.k = 2 ∧ o.fin = true ∧ b64DecGroups (s0 :: s1 :: s2 :: s3 :: rest) = [o.b0, o.b1])
        ∧ (s2 ≠ 0x3D#8 → s3 ≠ 0x3D#8 →
            o.k = 3 ∧ o.fin = false
              ∧ b64DecGroups (s0 :: s1 :: s2 :: s3 :: rest) = [o.b0, o.b1, o.b2] ++ b64DecGroups rest))

/-- U64D gives back the bytes of a group U64E packed, and as many as it had: the spec's own inference "each byte is the inverse
of 30_encoding.md rule R83's packing" (42_base64_decode.md section 1). -/
def Obligations.U64dGivesBackTheGroupOfU64e : Prop :=
  ∀ b0 b1 b2 : Byte,
    (let (s0, s1, s2, s3) := u64e b0 b1 b2 3
     u64dBytes (u64d s0 s1 s2 s3) = [b0, b1, b2] ∧ (u64d s0 s1 s2 s3).fin = false)
    ∧ (let (s0, s1, s2, s3) := u64e b0 b1 b2 2
       u64dBytes (u64d s0 s1 s2 s3) = [b0, b1] ∧ (u64d s0 s1 s2 s3).fin = true)
    ∧ (let (s0, s1, s2, s3) := u64e b0 b1 b2 1
       u64dBytes (u64d s0 s1 s2 s3) = [b0] ∧ (u64d s0 s1 s2 s3).fin = true)

/-! ## Transforms -/

/-- R125: the output length of B64Enc is exactly 4·⌈n/3⌉, and so always a multiple of 4. -/
def Obligations.B64EncLengthLaw : Prop :=
  ∀ b : List Byte, (b64Enc b).length = 4 * ((b.length + 2) / 3) ∧ (b64Enc b).length % 4 = 0

/-- R124: each full group of three bytes stands, encoded, at four output positions; the bytes left at the end are one partial
group. -/
def Obligations.B64EncGroupsInSequence : Prop :=
  ∀ (inp : List Byte) (g : Nat) (b0 b1 b2 : Byte),
    (inp[3 * g]? = some b0 → inp[3 * g + 1]? = some b1 → inp[3 * g + 2]? = some b2 →
      ((b64Enc inp).drop (4 * g)).take 4 = u64eSymbols b0 b1 b2 3)
    ∧ (inp[3 * g]? = some b0 → inp[3 * g + 1]? = some b1 → inp[3 * g + 2]? = none →
      (b64Enc inp).drop (4 * g) = u64eSymbols b0 b1 0x00#8 2)
    ∧ (inp[3 * g]? = some b0 → inp[3 * g + 1]? = none → (b64Enc inp).drop (4 * g) = u64eSymbols b0 0x00#8 0x00#8 1)

/-- The padding law (41_base64_encode.md section 2): the output ends in (3 − n % 3) % 3 symbols `=`, and, by the spec's own
inference "`=` appears nowhere else in the output", in no other. -/
def Obligations.B64EncPaddingLaw : Prop :=
  ∀ b : List Byte, ∃ body : List Byte,
    b64Enc b = body ++ List.replicate ((3 - b.length % 3) % 3) 0x3D#8 ∧ (0x3D#8 : Byte) ∉ body

/-- R127: every output symbol is a code of LUT64 or 0x3D. -/
def Obligations.B64EncAlphabetLaw : Prop :=
  ∀ (b : List Byte) (c : Byte), c ∈ b64Enc b → (∃ v : BitVec 6, c = lut64 v) ∨ c = 0x3D#8

/-- R139, R140: B64Dec fails with InvalidLength exactly when n % 4 ≠ 0, whatever the symbols, and with InvalidCharacter exactly
when n % 4 = 0 and some symbol is Invalid, wherever it stands; else it succeeds. -/
def Obligations.B64DecErrorsExactly : Prop :=
  ∀ inp : List Byte,
    (b64Dec inp = .err .invalidLength ↔ inp.length % 4 ≠ 0)
      ∧ (b64Dec inp = .err .invalidCharacter ↔ inp.length % 4 = 0 ∧ ∃ c ∈ inp, inv64 c = .invalid)
      ∧ ((∃ out, b64Dec inp = .ok out) ↔ inp.length % 4 = 0 ∧ ∀ c ∈ inp, inv64 c ≠ .invalid)

/-- R141: groups after a terminating group add no bytes, and raise no error but that of an invalid symbol: the result is the
bytes decoded up to and including the terminating group. -/
def Obligations.B64DecStopsAtATerminatingGroup : Prop :=
  ∀ (pre post out : List Byte) (s0 s1 s2 s3 : Byte),
    pre.length % 4 = 0 → (s2 = 0x3D#8 ∨ s3 = 0x3D#8) → b64Dec (pre ++ [s0, s1, s2, s3]) = .ok out →
      post.length % 4 = 0 → (∀ c ∈ post, inv64 c ≠ .invalid) → b64Dec (pre ++ [s0, s1, s2, s3] ++ post) = .ok out

/-- The length of a successful B64Dec, by the first terminating group: the spec's own inference "the output length of a
successful B64DEC is 3·t + k_t when a terminating group exists, and 3·(n/4) otherwise" (42_base64_decode.md section 2). -/
def Obligations.B64DecLengthLaw : Prop :=
  ∀ inp out : List Byte, b64Dec inp = .ok out →
    ((∀ g < inp.length / 4, inp[4 * g + 2]? ≠ some 0x3D#8 ∧ inp[4 * g + 3]? ≠ some 0x3D#8) →
      out.length = 3 * (inp.length / 4))
    ∧ (∀ t < inp.length / 4,
        (∀ g < t, inp[4 * g + 2]? ≠ some 0x3D#8 ∧ inp[4 * g + 3]? ≠ some 0x3D#8) →
          (inp[4 * t + 2]? = some 0x3D#8 → out.length = 3 * t + 1)
          ∧ (inp[4 * t + 2]? ≠ some 0x3D#8 → inp[4 * t + 3]? = some 0x3D#8 → out.length = 3 * t + 2))
    ∧ out.length ≤ 3 * (inp.length / 4)

/-- R143, the law: for all byte sequences b, decoding the encoding of b gives b. -/
def Obligations.Base64RoundTrip : Prop :=
  ∀ b : List Byte, b64Dec (b64Enc b) = .ok b

/-- R153, R154: B16Enc's output has 2·n symbols, each one of the 16 codes of LUT16. -/
def Obligations.B16EncLengthAndAlphabet : Prop :=
  ∀ b : List Byte,
    (b16Enc b).length = 2 * b.length
      ∧ ∀ c ∈ b16Enc b, (∃ v, c = lut16 v)
          ∧ ((0x30 ≤ c.toNat ∧ c.toNat ≤ 0x39) ∨ (0x41 ≤ c.toNat ∧ c.toNat ≤ 0x46)) ∧ c ≠ 0x3D#8

/-- R164, R165: B16Dec fails with InvalidLength exactly when n is odd, whatever the symbols, with InvalidCharacter exactly when
n is even and some symbol is Invalid, and else succeeds. -/
def Obligations.B16DecErrorsExactly : Prop :=
  ∀ inp : List Byte,
    (b16Dec inp = .err .invalidLength ↔ inp.length % 2 ≠ 0)
      ∧ (b16Dec inp = .err .invalidCharacter ↔ inp.length % 2 = 0 ∧ ∃ c ∈ inp, inv16 c = .invalid)
      ∧ ((∃ out, b16Dec inp = .ok out) ↔ inp.length % 2 = 0 ∧ ∀ c ∈ inp, inv16 c ≠ .invalid)

/-- R167, the law: for all byte sequences b, decoding the encoding of b gives b. -/
def Obligations.Base16RoundTrip : Prop :=
  ∀ b : List Byte, b16Dec (b16Enc b) = .ok b

/-- Base16 text that decodes is the encoding of the bytes it decodes to, and its length is twice theirs: the spec's own
inference "every valid even-length text is the encoding of exactly one byte sequence" (44_base16_decode.md section 2). -/
def Obligations.Base16TextIsCanonical : Prop :=
  ∀ text b : List Byte, b16Dec text = .ok b →
    b16Enc b = text ∧ text.length = 2 * b.length ∧ ∀ b' : List Byte, b16Enc b' = text → b' = b

/-- R10: OBUF_SIZE is max(2·IBUF_SIZE, 4·⌈IBUF_SIZE/3⌉); no command on an input that fits IBUF produces more than that, and
some command produces exactly that. -/
def Obligations.OutputNeverOverflows : Prop :=
  ∀ p : Params,
    p.obufSize = max (2 * p.ibufSize) (4 * ((p.ibufSize + 2) / 3))
      ∧ (∀ (i : Instr) (inp out : List Byte), inp.length ≤ p.ibufSize → transform i inp = .ok out →
          out.length ≤ p.obufSize)
      ∧ ∃ (i : Instr) (inp out : List Byte), inp.length = p.ibufSize ∧ transform i inp = .ok out ∧ out.length = p.obufSize

/-! ## The four commands

`exec i s` is the run and the commit of an accepted command, whose length is latched in en. -/

/-- R123, R128: B64ENC commits with STATUS = 0x00000002 and OUT_LEN = 4·⌈n/3⌉, and group g of the output is U64E of the bytes
IBUF[3g], IBUF[3g+1], IBUF[3g+2], those past the end read as 0, with k = min(3, n − 3g). It never fails. -/
def Obligations.B64encCommitsItsEncoding : Prop :=
  ∀ s : State, s.en.toNat ≤ s.cfg.ibufSize →
    ∃ t, exec .b64enc s = .next t
      ∧ statusWord t = 0x00000002#32
      ∧ t.outLen.toNat = 4 * ((s.en.toNat + 2) / 3)
      ∧ ∀ g, 3 * g < s.en.toNat →
          let k := min 3 (s.en.toNat - 3 * g)
          let b1 := if 2 ≤ k then ibufByte s (3 * g + 1) else 0x00#8
          let b2 := if k = 3 then ibufByte s (3 * g + 2) else 0x00#8
          (obufByte t (4 * g), obufByte t (4 * g + 1), obufByte t (4 * g + 2), obufByte t (4 * g + 3))
            = u64e (ibufByte s (3 * g)) b1 b2 (BitVec.ofNat 2 k)

/-- R138: B64DEC commits InvalidLength when n % 4 ≠ 0, else InvalidCharacter when one of the n symbols is Invalid, else the
bytes of its groups up to and including the first terminating one, with OUT_LEN their number. -/
def Obligations.B64decCommitsBytesOrError : Prop :=
  ∀ s : State, s.en.toNat ≤ s.cfg.ibufSize →
    let group := fun g : Nat =>
      u64d (ibufByte s (4 * g)) (ibufByte s (4 * g + 1)) (ibufByte s (4 * g + 2)) (ibufByte s (4 * g + 3))
    ∃ t, exec .b64dec s = .next t
      ∧ (s.en.toNat % 4 ≠ 0 → statusWord t = 0x00000006#32 ∧ t.outLen = 0)
      ∧ (s.en.toNat % 4 = 0 → (∃ i < s.en.toNat, inv64 (ibufByte s i) = .invalid) →
          statusWord t = 0x0000000A#32 ∧ t.outLen = 0)
      ∧ (s.en.toNat % 4 = 0 → (∀ i < s.en.toNat, inv64 (ibufByte s i) ≠ .invalid) →
          statusWord t = 0x00000002#32
            ∧ ((∀ g < s.en.toNat / 4, (group g).fin = false) → t.outLen.toNat = 3 * (s.en.toNat / 4))
            ∧ ∀ g < s.en.toNat / 4, (∀ h < g, (group h).fin = false) →
                ((group g).fin = true → t.outLen.toNat = 3 * g + (group g).k.toNat)
                ∧ ∀ j < (group g).k.toNat,
                    some (obufByte t (3 * g + j)) = [(group g).b0, (group g).b1, (group g).b2][j]?)

/-- R152, R155: B16ENC commits, with STATUS = 0x00000002 and OUT_LEN = 2·n, the two symbols of each input byte in sequence. It
never fails. -/
def Obligations.B16encCommitsItsEncoding : Prop :=
  ∀ s : State, s.en.toNat ≤ s.cfg.ibufSize →
    ∃ t, exec .b16enc s = .next t
      ∧ statusWord t = 0x00000002#32
      ∧ t.outLen.toNat = 2 * s.en.toNat
      ∧ ∀ i < s.en.toNat,
          obufByte t (2 * i) = lut16 ((ibufByte s i).extractLsb' 4 4)
            ∧ obufByte t (2 * i + 1) = lut16 ((ibufByte s i).extractLsb' 0 4)

/-- R163: B16DEC commits InvalidLength when n is odd, else InvalidCharacter when one of the n symbols is Invalid, else the byte
of each pair of symbols, with OUT_LEN = n/2. -/
def Obligations.B16decCommitsBytesOrError : Prop :=
  ∀ s : State, s.en.toNat ≤ s.cfg.ibufSize →
    ∃ t, exec .b16dec s = .next t
      ∧ (s.en.toNat % 2 ≠ 0 → statusWord t = 0x00000006#32 ∧ t.outLen = 0)
      ∧ (s.en.toNat % 2 = 0 → (∃ i < s.en.toNat, inv16 (ibufByte s i) = .invalid) →
          statusWord t = 0x0000000A#32 ∧ t.outLen = 0)
      ∧ (s.en.toNat % 2 = 0 → (∀ i < s.en.toNat, inv16 (ibufByte s i) ≠ .invalid) →
          statusWord t = 0x00000002#32
            ∧ t.outLen.toNat = s.en.toNat / 2
            ∧ ∀ g < s.en.toNat / 2, ∃ hi lo : BitVec 4,
                inv16 (ibufByte s (2 * g)) = .val hi ∧ inv16 (ibufByte s (2 * g + 1)) = .val lo
                  ∧ obufByte t g = hi ++ lo)

/-- The frame of the commit of B64ENC, B64DEC, B16ENC and B16DEC (40_command_engine.md section 1, 60_exceptions.md section 4):
it changes only OBUF, OUT_LEN and STATUS (with the phase), and the model's own draw fields (log entries 4 and 5); every other
register, the working registers among them (the model's choice, log entry 8), and every byte of IBUF keep their values. -/
def Obligations.CommitChangesOnlyObufOutLenStatus : Prop :=
  ∀ (i : Instr) (s : State), ∃ t, exec i s = .next t
    ∧ t = { s with
        obuf := t.obuf, outLen := t.outLen, phase := .idle, done := true, err := t.err, rej := false
        draw := s.draw + 1, obufDraw := s.draw }
    ∧ ∀ a, ibufByte t a = ibufByte s a

/-- After the commit of B64ENC, B64DEC, B16ENC or B16DEC the output cells are defined and no other OBUF cell is; after an error
none is (40_command_engine.md section 1). That a cell is listed exactly when it is defined is the model's choice (log entry
4). -/
def Obligations.CommitDefinesExactlyTheOutputCells : Prop :=
  ∀ (i : Instr) (s t : State), s.en.toNat ≤ s.cfg.ibufSize → exec i s = .next t →
    (∀ j, (Memory.get? t.obuf j).isSome = true ↔ j < t.outLen.toNat)
      ∧ (t.err ≠ 0 → t.outLen = 0 ∧ ∀ j, Memory.get? t.obuf j = none)

/-- R111: the committed STATUS, OUT_LEN and output bytes depend only on the operation and the input. -/
def Obligations.CommitDependsOnInputOnly : Prop :=
  ∀ (i : Instr) (s s' t t' : State),
    s.en = s'.en → (∀ j < s.en.toNat, ibufByte s j = ibufByte s' j) → s.en.toNat ≤ s.cfg.ibufSize →
      exec i s = .next t → exec i s' = .next t' →
        statusWord t = statusWord t' ∧ t.outLen = t'.outLen ∧ ∀ j < t.outLen.toNat, obufByte t j = obufByte t' j

/-- The hardware form of the round-trip law, the spec's own inference "if B64ENC over b commits text e, and B64DEC runs over e
... then B64DEC commits Ok(b)" (42_base64_decode.md section 2): B64DEC over the text that B64ENC committed, copied into IBUF,
commits the first command's input. -/
def Obligations.MachineBase64RoundTrip : Prop :=
  ∀ s t s' : State, s.en.toNat ≤ s.cfg.ibufSize → s'.en.toNat ≤ s'.cfg.ibufSize →
    exec .b64enc s = .next t → s'.en.toNat = t.outLen.toNat →
      (∀ j < t.outLen.toNat, ibufByte s' j = obufByte t j) →
        ∃ t', exec .b64dec s' = .next t' ∧ statusWord t' = 0x00000002#32
          ∧ t'.outLen.toNat = s.en.toNat ∧ ∀ j < s.en.toNat, obufByte t' j = ibufByte s j

/-- The hardware form of the Base16 round-trip law, the spec's own inference "if B16ENC over b commits text e, and B16DEC runs
over e ... then B16DEC commits Ok(b)" (44_base16_decode.md section 2): B16DEC over the text that B16ENC committed, copied into
IBUF, commits the first command's input. -/
def Obligations.MachineBase16RoundTrip : Prop :=
  ∀ s t s' : State, s.en.toNat ≤ s.cfg.ibufSize → s'.en.toNat ≤ s'.cfg.ibufSize →
    exec .b16enc s = .next t → s'.en.toNat = t.outLen.toNat →
      (∀ j < t.outLen.toNat, ibufByte s' j = obufByte t j) →
        ∃ t', exec .b16dec s' = .next t' ∧ statusWord t' = 0x00000002#32
          ∧ t'.outLen.toNat = s.en.toNat ∧ ∀ j < s.en.toNat, obufByte t' j = ibufByte s j

/-! ## Issue, accept, reject -/

/-- R102, R172: a CMD write on an idle block with CMD[31:2] ≠ 0, or with IN_LEN.LEN > IBUF_SIZE, stores the word, sets STATUS
to 0x00000012 and OUT_LEN to 0, and does not run; the phase, IBUF, IN_LEN, OBUF and everything else keep their values. -/
def Obligations.CmdWriteRejects : Prop :=
  ∀ (s : State) (w : Word), s.resetPin = false → s.phase = .idle →
    (w.extractLsb' 2 30 ≠ 0#30 ∨ s.cfg.ibufSize < s.inLen.toNat) →
      ∃ t, hostAccess (.write 0x00000#18 4 w) s = .next t
        ∧ t = { s with cmd := w, done := true, err := 0, rej := true, outLen := 0 }
        ∧ statusWord t = 0x00000012#32

/-- R103: a CMD write of a legal word on an idle block whose length fits stores the word and starts the command: eop and en are
latched, OUT_LEN is 0, STATUS is 0x00000001 and the phase RUN; but for the working registers nothing else changes. -/
def Obligations.CmdWriteAccepts : Prop :=
  ∀ (s : State) (w : Word), s.resetPin = false → s.phase = .idle → w.extractLsb' 2 30 = 0#30 →
    s.inLen.toNat ≤ s.cfg.ibufSize →
      ∃ t, hostAccess (.write 0x00000#18 4 w) s = .next t
        ∧ t = { s with
            cmd := w, phase := .run, done := false, err := 0, rej := false, outLen := 0
            eop := w.extractLsb' 0 2, en := s.inLen, ipos := t.ipos, opos := t.opos, latch := t.latch }
        ∧ statusWord t = 0x00000001#32

/-- Host writes to CMD, IN_LEN and IBUF (the write of n bytes at offset 0x10000 + a, aligned and inside IBUF) while BUSY = 1
store nothing and signal no error (40_command_engine.md section 1, 20_memory.md sections 2, 5 and 6, 10_state.md section 4); the
model flags each one in its own field (log entry 10). -/
def Obligations.BusyWritesAreLost : Prop :=
  ∀ (s : State) (w : Word), s.resetPin = false → s.phase = .run →
    hostAccess (.write 0x00000#18 4 w) s = .next { s with hazards := .lostCmdWrite w :: s.hazards }
      ∧ hostAccess (.write 0x00008#18 4 w) s = .next { s with hazards := .lostInLenWrite w :: s.hazards }
      ∧ ∀ (off : Offset) (n a : Nat), off.toNat = 0x10000 + a → (n = 1 ∨ n = 2 ∨ n = 4) → off.toNat % n = 0 →
          a + n ≤ s.cfg.ibufSize →
            hostAccess (.write off n w) s = .next { s with hazards := .lostIbufWrite off :: s.hazards }

/-! ## Registers -/

/-- R26: the fields of the STATUS word. -/
def Obligations.StatusWordLayout : Prop :=
  ∀ s : State,
    (statusWord s).extractLsb' 0 1 = BitVec.ofBool (decide (s.phase = .run))
      ∧ (statusWord s).extractLsb' 1 1 = BitVec.ofBool s.done
      ∧ (statusWord s).extractLsb' 2 2 = s.err
      ∧ (statusWord s).extractLsb' 4 1 = BitVec.ofBool s.rej
      ∧ (statusWord s).extractLsb' 5 27 = 0#27

/-- A 4-byte aligned read in the register window returns CMD, STATUS, IN_LEN, OUT_LEN or, for a reserved word, 0
(20_memory.md section 6), and changes nothing of the block. -/
def Obligations.RegisterReads : Prop :=
  ∀ (s : State) (off : Offset), s.resetPin = false → off.toNat ≤ 0xFC → off.toNat % 4 = 0 →
    hostAccess (.read off 4) s = .next { s with readData := some (
      if off = 0x00000#18 then s.cmd
      else if off = 0x00004#18 then statusWord s
      else if off = 0x00008#18 then s.inLen.setWidth 32
      else if off = 0x0000C#18 then s.outLen.setWidth 32
      else 0x00000000#32) }

/-- R54: a 4-byte aligned read of a reserved register word, 0x010 to 0x0FC, returns 0x00000000, and a 4-byte aligned write to
one is ignored, in either phase, with no other effect; so is a write to the read-only STATUS and OUT_LEN. -/
def Obligations.ReservedAndReadOnlyWords : Prop :=
  ∀ (s : State) (w : Word), s.resetPin = false →
    (∀ off : Offset, 0x010 ≤ off.toNat → off.toNat ≤ 0x0FC → off.toNat % 4 = 0 →
      hostAccess (.read off 4) s = .next { s with readData := some 0x00000000#32 }
        ∧ hostAccess (.write off 4 w) s = .next s)
    ∧ hostAccess (.write 0x00004#18 4 w) s = .next s
    ∧ hostAccess (.write 0x0000C#18 4 w) s = .next s

/-- A write of w to IN_LEN on an idle block stores w[16:0] and changes nothing else, so that IN_LEN then reads as w[16:0] with
zeros above (10_state.md section 4). -/
def Obligations.InLenWriteStoresSeventeenBits : Prop :=
  ∀ (s : State) (w : Word), s.resetPin = false → s.phase = .idle →
    ∃ t, hostAccess (.write 0x00008#18 4 w) s = .next t
      ∧ t = { s with inLen := w.extractLsb' 0 17 }
      ∧ ∃ u, hostAccess (.read 0x00008#18 4) t = .next u ∧ u.readData = some (0#15 ++ w.extractLsb' 0 17)

/-! ## Bus and buffers -/

/-- An access is answered with a bus error, and has no effect, exactly when it is not a 4-byte aligned register access and not
a naturally aligned 1, 2 or 4-byte access wholly inside IBUF or OBUF, whatever the engine does (20_memory.md sections 2 and 6,
60_exceptions.md section 1). That every other size is a bus error is the model's reading (log entry 17), and so is the fault as
the end of the step (log entry 15). -/
def Obligations.BusErrorExactlyWhenUnsupported : Prop :=
  ∀ (s : State) (off : Offset) (n : Nat) (v : Word), s.resetPin = false →
    let supported :=
      (n = 4 ∧ off.toNat % 4 = 0 ∧ off.toNat ≤ 0xFF)
        ∨ ((n = 1 ∨ n = 2 ∨ n = 4) ∧ off.toNat % n = 0
            ∧ ((0x10000 ≤ off.toNat ∧ off.toNat + n ≤ 0x10000 + s.cfg.ibufSize)
              ∨ (0x20000 ≤ off.toNat ∧ off.toNat + n ≤ 0x20000 + s.cfg.obufSize)))
    (hostAccess (.read off n) s = .fault (.busError off) ↔ ¬ supported)
      ∧ (hostAccess (.write off n v) s = .fault (.busError off) ↔ ¬ supported)
      ∧ (supported → (∃ t, hostAccess (.read off n) s = .next t) ∧ ∃ t, hostAccess (.write off n v) s = .next t)

/-- A write of n = 1, 2 or 4 bytes at offset 0x10000 + a, aligned and inside IBUF, on an idle block stores v[8k+7:8k] in IBUF[a+k]
for each k < n and changes no other cell and nothing else (20_memory.md sections 2, 3, 5 and 6). -/
def Obligations.IbufWriteStoresLittleEndian : Prop :=
  ∀ (s : State) (off : Offset) (n a : Nat) (v : Word), s.resetPin = false → s.phase = .idle →
    off.toNat = 0x10000 + a → (n = 1 ∨ n = 2 ∨ n = 4) → off.toNat % n = 0 → a + n ≤ s.cfg.ibufSize →
      ∃ t, hostAccess (.write off n v) s = .next t
        ∧ t = { s with ibuf := t.ibuf }
        ∧ (∀ k < n, ibufByte t (a + k) = v.extractLsb' (8 * k) 8)
        ∧ ∀ x, x < a ∨ a + n ≤ x → ibufByte t x = ibufByte s x

/-- A read of n = 1, 2 or 4 bytes at offset 0x10000 + a, aligned and inside IBUF, returns the sum of IBUF[a+k]·2^(8k) over k < n,
in either phase, and changes nothing of the block (20_memory.md sections 2, 3, 5 and 6); a cell nobody has written since reset
has a free value (log entry 3). -/
def Obligations.IbufReadIsLittleEndianSum : Prop :=
  ∀ (s : State) (off : Offset) (n a : Nat), s.resetPin = false →
    off.toNat = 0x10000 + a → (n = 1 ∨ n = 2 ∨ n = 4) → off.toNat % n = 0 → a + n ≤ s.cfg.ibufSize →
      ∃ v : Word, hostAccess (.read off n) s = .next { s with readData := some v }
        ∧ v.toNat = ((List.range n).map fun k => (ibufByte s (a + k)).toNat * 2 ^ (8 * k)).sum

/-- A read of n = 1, 2 or 4 bytes at offset 0x20000 + a, aligned and inside OBUF, on an idle block returns the sum of
OBUF[a+k]·2^(8k) over k < n and changes nothing of the block (20_memory.md sections 2, 3, 5 and 6); a cell the last commit did
not define has a free value (log entry 4). -/
def Obligations.ObufIdleReadIsLittleEndianSum : Prop :=
  ∀ (s : State) (off : Offset) (n a : Nat), s.resetPin = false → s.phase = .idle →
    off.toNat = 0x20000 + a → (n = 1 ∨ n = 2 ∨ n = 4) → off.toNat % n = 0 → a + n ≤ s.cfg.obufSize →
      ∃ v : Word, hostAccess (.read off n) s = .next { s with readData := some v }
        ∧ v.toNat = ((List.range n).map fun k => (obufByte s (a + k)).toNat * 2 ^ (8 * k)).sum

/-- A write of n = 1, 2 or 4 bytes at offset 0x20000 + a, aligned and inside OBUF, changes nothing, in either phase; such a read
while BUSY = 1 answers and changes nothing of the block (20_memory.md sections 2, 5 and 6) but the model's draw (log entry 5), so
that the next such read is a fresh one. -/
def Obligations.ObufWriteIgnoredAndBusyReadAnswers : Prop :=
  ∀ (s : State) (off : Offset) (n a : Nat) (v : Word), s.resetPin = false →
    off.toNat = 0x20000 + a → (n = 1 ∨ n = 2 ∨ n = 4) → off.toNat % n = 0 → a + n ≤ s.cfg.obufSize →
      hostAccess (.write off n v) s = .next s
        ∧ (s.phase = .run →
            ∃ x : Word, hostAccess (.read off n) s = .next { s with readData := some x, draw := s.draw + 1 })

/-! ## Steps, reset and invariants -/

/-- While a command runs, the engine's commit turn executes the command that CMD decodes to (40_command_engine.md section 1);
with no turn listed the engine takes it by itself (the model's form of fairness, log entry 1). The step adds nothing but taking
the turn off the list. -/
def Obligations.StepRunsTheDecodedCommand : Prop :=
  ∀ (s : State) (i : Instr), RunLegal s → s.phase = .run → decodeWord s.cmd = .ok i →
    (∀ rest, s.turns = .engineCommit :: rest → step s = exec i { s with turns := rest })
      ∧ (s.turns = [] → step s = exec i s)

/-- The turns, the model's form of the order of moves (log entry 1), are taken in order: a host access is performed; on an idle
block the engine's turns, or no turn, change nothing but the list; and releasing reset, a level in the model's form (log entry
16), changes only the reset input (70_reset_and_hazards.md sections 1 and 2). -/
def Obligations.StepTakesTheOtherTurns : Prop :=
  ∀ (s : State) (m : Turn) (rest : List Turn), s.turns = m :: rest →
    (∀ a, m = .host a → step s = hostAccess a { s with turns := rest })
      ∧ (s.phase = .idle → m = .engineWork ∨ m = .engineCommit → step s = .next { s with turns := rest })
      ∧ (m = .resetOff → step s = .next { s with turns := rest, resetPin := false })
      ∧ (s.phase = .idle → step { s with turns := [] } = .next { s with turns := [] })

/-- R201: right after reset CMD, STATUS, IN_LEN and OUT_LEN are 0; and the engine is IDLE. -/
def Obligations.ResetRegisters : Prop :=
  State.reset.cmd = 0x00000000#32 ∧ statusWord State.reset = 0x00000000#32 ∧ State.reset.inLen = 0
    ∧ State.reset.outLen = 0 ∧ State.reset.phase = .idle

/-- Applying reset, in either phase, puts the registers into the reset state, aborts a running command, leaves no buffer cell
written or defined, and keeps the parameters (70_reset_and_hazards.md section 1). While reset is applied every host access is
refused, the model's form of the spec's "No host access to the instance is defined while reset is applied" (log entry 16); the
turns and the lost writes are kept (log entries 1 and 10). -/
def Obligations.ResetAbortsTheCommand : Prop :=
  ∀ (s : State) (rest : List Turn), s.turns = .resetOn :: rest →
    ∃ t, step s = .next t
      ∧ t.cmd = 0x00000000#32 ∧ statusWord t = 0x00000000#32 ∧ t.inLen = 0 ∧ t.outLen = 0 ∧ t.phase = .idle
      ∧ t.ibuf = [] ∧ t.obuf = [] ∧ t.cfg = s.cfg ∧ t.turns = rest ∧ t.hazards = s.hazards
      ∧ ∀ a, hostAccess a t = .refused .accessDuringReset

/-- The invariants of the machine hold at reset (the working registers there are the model's choice, log entry 6). -/
def Obligations.InvariantHoldsAtReset : Prop := State.reset.Inv ∧ LoopLegal State.reset

/-- The invariant of the machine (buffers canonical and within their sizes, STATUS legal, latched operands legal, output cells
defined, reset state held) is kept by every step, from every state that meets it. -/
def Obligations.EveryStepKeepsTheInvariant : Prop :=
  ∀ s t : State, s.Inv → step s = .next t → t.Inv

/-- The engine's working registers follow the group loop (10_state.md section 3, 40_command_engine.md section 2): every step
keeps the loop invariant. That opos counts what has been emitted is the model's reading (log entry 6); that an engine step takes
one group, that an input in error takes none, and that the commit keeps the working registers is its choice (log entry 8). -/
def Obligations.EveryStepKeepsTheGroupLoop : Prop :=
  ∀ s t : State, s.Inv → LoopLegal s → step s = .next t → LoopLegal t

/-- STATUS takes exactly six values, the spec's own inference (10_state.md section 4): in every state that meets the invariant it
is one of the six, and each of the six is its value in some state that meets the invariant. -/
def Obligations.StatusTakesSixValues : Prop :=
  let six : List Word := [0x00000000#32, 0x00000001#32, 0x00000002#32, 0x00000006#32, 0x0000000A#32, 0x00000012#32]
  (∀ s : State, s.Inv → statusWord s ∈ six) ∧ ∀ w ∈ six, ∃ s : State, s.Inv ∧ statusWord s = w

/-- An engine step before the commit changes nothing but ipos, opos and the group latch (40_command_engine.md section 1); that
it writes no OBUF cell is the model's choice (log entry 8). -/
def Obligations.WorkStepsAreInvisible : Prop :=
  ∀ (s : State) (rest : List Turn), s.turns = .engineWork :: rest →
    ∃ t, step s = .next t ∧ t = { s with turns := rest, ipos := t.ipos, opos := t.opos, latch := t.latch }

/-- ipos is 0 when a command is accepted; and a running command whose input is not in error and whose loop has not ended takes
its next group in the engine's next step, where ipos advances by the group size, or to en for a last partial group of B64ENC:
the spec's own inference (10_state.md section 3). That one step takes one group is the model's choice (log entry 8). -/
def Obligations.IposStartsAtZeroAndAdvancesByTheGroupSize : Prop :=
  (∀ (s t : State) (w : Word), s.phase = .idle → hostAccess (.write 0x00000#18 4 w) s = .next t → t.phase = .run → t.ipos = 0)
  ∧ ∀ (s : State) (rest : List Turn) (out : List Byte), s.Inv → s.phase = .run → s.turns = .engineWork :: rest →
    transform (opInstr s.eop) (input s) = .ok out → loopEnded s = false →
      ∃ t, step s = .next t
        ∧ t.ipos.toNat = min (s.ipos.toNat + groupSize (opInstr s.eop)) s.en.toNat
        ∧ t.latch =
            (((List.range s.en.toNat).map (ibufByte s)).drop s.ipos.toNat).take (groupSize (opInstr s.eop))

/-- On an idle block no step but a CMD write or a reset changes CMD, STATUS, OUT_LEN or any OBUF byte: the spec's own inference
"every later read of OUT_LEN or OBUF, until the next command or reset, sees that command's committed values" (20_memory.md
section 7). -/
def Obligations.CommittedResultIsStable : Prop :=
  ∀ s t : State, s.phase = .idle → step s = .next t →
    s.turns.head? ≠ some .resetOn → (∀ n w, s.turns.head? ≠ some (.host (.write 0x00000#18 n w))) →
      t.cmd = s.cmd ∧ statusWord t = statusWord s ∧ t.outLen = s.outLen ∧ t.phase = .idle
        ∧ ∀ j, obufByte t j = obufByte s j

/-- A running command commits (40_command_engine.md section 1), whatever the host does meanwhile, short of a reset or of an
access the block does not support: within as many steps as turns are listed, the engine is still running the same command over
the same input and its next step is the commit. The bound comes from the model's turns (log entry 1). -/
def Obligations.EveryAcceptedCommandCommits : Prop :=
  ∀ s : State, s.phase = .run → s.resetPin = false →
    (∀ m ∈ s.turns, m ≠ .resetOn
      ∧ (∀ off n, m = .host (.read off n) → (busTarget s.cfg off n).isSome = true)
      ∧ (∀ off n w, m = .host (.write off n w) → (busTarget s.cfg off n).isSome = true)) →
      ∃ k ≤ s.turns.length, ∃ u t : State,
        Host.Core.run Sys2Proof.core k s = .next u ∧ u.phase = .run ∧ u.eop = s.eop ∧ u.en = s.en
          ∧ (∀ a, ibufByte u a = ibufByte s a)
          ∧ step u = .next t ∧ t.phase = .idle ∧ t.done = true
          ∧ statusWord t = statusWord (commit (transform (opInstr s.eop) (input s)) s)
          ∧ t.outLen = (commit (transform (opInstr s.eop) (input s)) s).outLen
          ∧ ∀ j, Memory.get? t.obuf j = Memory.get? (commit (transform (opInstr s.eop) (input s)) s).obuf j

/-- From a CMD write on an idle block to the commit, the result is that of the transform over the first IN_LEN bytes of IBUF,
however many engine steps lie between: the spec's own inference "No result of this spec depends on timing"
(70_reset_and_hazards.md section 4), the latency being the model's turns (log entry 1). -/
def Obligations.ResultDoesNotDependOnLatency : Prop :=
  ∀ (s : State) (i : Instr) (k : Nat) (rest : List Turn),
    s.resetPin = false → s.phase = .idle → s.inLen.toNat ≤ s.cfg.ibufSize →
      s.turns = .host (.write 0x00000#18 4 (encode i)) :: (List.replicate k .engineWork ++ .engineCommit :: rest) →
        ∃ t : State, Host.Core.run Sys2Proof.core (k + 2) s = .next t ∧ t.turns = rest ∧ t.cmd = encode i
          ∧ t.phase = .idle ∧ t.ibuf = s.ibuf ∧ t.inLen = s.inLen
          ∧ statusWord t = statusWord (commit (transform i (ibufTake s s.inLen.toNat)) s)
          ∧ t.outLen = (commit (transform i (ibufTake s s.inLen.toNat)) s).outLen
          ∧ ∀ j, Memory.get? t.obuf j = Memory.get? (commit (transform i (ibufTake s s.inLen.toNat)) s).obuf j

/-- A host that keeps its duties (40_command_engine.md section 3, 70_reset_and_hazards.md section 3; hostDuty is the model's
reading of them, and its choice where the host table is silent: log entry 20) is answered: no bus error, no refusal, no lost
write, no reject. -/
def Obligations.DutifulAccessIsAnswered : Prop :=
  ∀ (a : Access) (s : State), hostDuty a s = true →
    ∃ t, hostAccess a s = .next t ∧ t.hazards = s.hazards ∧ (t.rej = true → s.rej = true)

/-! ## Several copies of the block -/

/-- R74: an access to one copy, or a step of it, changes nothing in any other copy. -/
def Obligations.CopiesAreIndependent : Prop :=
  ∀ (sys sys' : System) (k j : Nat) (addr : Nat) (op : BusOp) (off : Offset),
    (sys.stepAt k = .next sys' → j ≠ k → sys'.slots[j]? = sys.slots[j]?)
      ∧ (sys.route addr = some (k, off) → sys.access addr op = .next sys' → j ≠ k → sys'.slots[j]? = sys.slots[j]?)

/-- R51: on a well-formed bus an address A reaches copy k at offset A − BASE[k] exactly when BASE[k] ≤ A < BASE[k] + 0x40000,
and so at most one copy. -/
def Obligations.RoutingReachesExactlyOneCopy : Prop :=
  ∀ (sys : System) (addr k : Nat) (off : Offset), sys.wf →
    (sys.route addr = some (k, off) ↔
      ∃ c, sys.slots[k]? = some c ∧ c.base ≤ addr ∧ addr < c.base + 0x40000 ∧ off.toNat = addr - c.base)
end

