-- ==== Sys2Proof/Laws/Memory.lean ====
section
/-! SUPPORT. The buffer operations: what is read after a write, that every operation keeps the canonical form, and that equal
contents are equal data. -/

namespace Sys2Proof.Machine

@[simp] theorem memory_get_nil (a : Nat) : Memory.get? [] a = none := rfl

theorem memory_get_cons (c : Host.Cell) (m : List Host.Cell) (a : Nat) :
    Memory.get? (c :: m) a = if c.1 = a then some c.2 else Memory.get? m a := rfl

/-- A read after a write of one cell. -/
theorem memory_get_set (m : List Host.Cell) (a x : Nat) (b : Byte) :
    Memory.get? (Memory.set m a b) x = if x = a then some b else Memory.get? m x := by
  induction m with
  | nil => by_cases h : a = x <;> simp [Memory.set, memory_get_cons, h, eq_comm]
  | cons c m ih =>
    unfold Memory.set
    split
    · by_cases h : a = x
      · simp [memory_get_cons, h]
      · simp [memory_get_cons, h, Ne.symm h]
    · split
      · rename_i h1 h2
        by_cases h : a = x
        · simp [memory_get_cons, h]
        · have h' : c.1 ≠ x := by omega
          simp [memory_get_cons, h, h', Ne.symm h]
      · rename_i h1 h2
        rw [memory_get_cons, memory_get_cons, ih]
        by_cases h : c.1 = x
        · have h' : x ≠ a := by omega
          simp [h, h']
        · simp [h]

/-- A read after a write of a run of cells. -/
theorem memory_get_writeBytes (bs : List Byte) (m : List Host.Cell) (a x : Nat) :
    Memory.get? (Memory.writeBytes m a bs) x =
      if a ≤ x ∧ x < a + bs.length then bs[x - a]? else Memory.get? m x := by
  induction bs generalizing m a with
  | nil =>
    have h : ¬ (a ≤ x ∧ x < a) := by omega
    simp [Memory.writeBytes, h]
  | cons b bs ih =>
    rw [Memory.writeBytes, ih, memory_get_set, List.length_cons]
    by_cases h : a + 1 ≤ x ∧ x < a + 1 + bs.length
    · have h2 : a ≤ x ∧ x < a + (bs.length + 1) := by omega
      have h3 : x - a = (x - (a + 1)) + 1 := by omega
      rw [if_pos h, if_pos h2, h3, List.getElem?_cons_succ]
    · rw [if_neg h]
      by_cases hx : x = a
      · subst hx
        simp
      · have h2 : ¬ (a ≤ x ∧ x < a + (bs.length + 1)) := by omega
        simp [hx, h2]

/-- A read of the buffer that lists exactly a run of bytes. -/
theorem memory_get_ofBytes (bs : List Byte) (a x : Nat) :
    Memory.get? (Memory.ofBytes a bs) x = if a ≤ x then bs[x - a]? else none := by
  induction bs generalizing a with
  | nil => simp [Memory.ofBytes]
  | cons b bs ih =>
    rw [Memory.ofBytes, memory_get_cons, ih]
    by_cases h : a = x
    · subst h
      simp
    · by_cases h2 : a + 1 ≤ x
      · have h3 : x - a = (x - (a + 1)) + 1 := by omega
        rw [if_neg h, if_pos h2, if_pos (by omega), h3, List.getElem?_cons_succ]
      · rw [if_neg h, if_neg h2, if_neg (by omega)]

/-- The canonical form, said of the head and every later cell. -/
theorem memory_wf_cons (c : Host.Cell) (m : List Host.Cell) :
    Memory.wf (c :: m) = true ↔ (∀ d ∈ m, c.1 < d.1) ∧ Memory.wf m = true := by
  induction m generalizing c with
  | nil => simp [Memory.wf]
  | cons d m ih =>
    simp only [Memory.wf, Bool.and_eq_true, decide_eq_true_eq, List.mem_cons, forall_eq_or_imp]
    constructor
    · rintro ⟨h, hw⟩
      exact ⟨⟨h, fun e he => lt_trans h (((ih d).1 hw).1 e he)⟩, hw⟩
    · rintro ⟨⟨h, _⟩, hw⟩
      exact ⟨h, hw⟩

theorem memory_mem_set {m : List Host.Cell} {a : Nat} {b : Byte} {d : Host.Cell} (h : d ∈ Memory.set m a b) :
    d = (a, b) ∨ d ∈ m := by
  induction m with
  | nil => simpa [Memory.set] using h
  | cons c m ih =>
    unfold Memory.set at h
    split at h
    · simpa using h
    · split at h
      · simp only [List.mem_cons] at h ⊢
        tauto
      · simp only [List.mem_cons] at h ⊢
        rcases h with h | h
        · tauto
        · have := ih h
          tauto

/-- A write of one cell keeps the canonical form. -/
theorem memory_set_wf {m : List Host.Cell} (a : Nat) (b : Byte) (h : Memory.wf m = true) :
    Memory.wf (Memory.set m a b) = true := by
  induction m with
  | nil => rfl
  | cons c m ih =>
    obtain ⟨hlt, hw⟩ := (memory_wf_cons c m).1 h
    unfold Memory.set
    split
    · rename_i ha
      rw [memory_wf_cons]
      refine ⟨fun d hd => ?_, h⟩
      rcases List.mem_cons.1 hd with rfl | hd
      · exact ha
      · exact lt_trans ha (hlt d hd)
    · split
      · rename_i h1 h2
        rw [memory_wf_cons]
        exact ⟨fun d hd => by simpa [h2] using hlt d hd, hw⟩
      · rename_i h1 h2
        rw [memory_wf_cons]
        refine ⟨fun d hd => ?_, ih hw⟩
        rcases memory_mem_set hd with rfl | hd
        · simp only
          omega
        · exact hlt d hd

/-- A write of a run of cells keeps the canonical form. -/
theorem memory_writeBytes_wf (bs : List Byte) {m : List Host.Cell} (a : Nat) (h : Memory.wf m = true) :
    Memory.wf (Memory.writeBytes m a bs) = true := by
  induction bs generalizing m a with
  | nil => exact h
  | cons b bs ih => exact ih (a + 1) (memory_set_wf a b h)

theorem memory_mem_ofBytes {bs : List Byte} {a : Nat} {d : Host.Cell} (h : d ∈ Memory.ofBytes a bs) :
    a ≤ d.1 ∧ d.1 < a + bs.length := by
  induction bs generalizing a with
  | nil => simp [Memory.ofBytes] at h
  | cons b bs ih =>
    rcases List.mem_cons.1 h with rfl | h
    · simp
    · have := ih h
      simp only [List.length_cons]
      omega

/-- The buffer that lists exactly a run of bytes is in canonical form. -/
theorem memory_ofBytes_wf (bs : List Byte) (a : Nat) : Memory.wf (Memory.ofBytes a bs) = true := by
  induction bs generalizing a with
  | nil => rfl
  | cons b bs ih =>
    rw [Memory.ofBytes, memory_wf_cons]
    exact ⟨fun d hd => (memory_mem_ofBytes hd).1, ih (a + 1)⟩

theorem memory_below_iff (n : Nat) (m : List Host.Cell) :
    Memory.below n m = true ↔ ∀ d ∈ m, d.1 < n := by
  simp [Memory.below]

theorem memory_set_below {n a : Nat} {b : Byte} {m : List Host.Cell} (h : Memory.below n m = true) (ha : a < n) :
    Memory.below n (Memory.set m a b) = true := by
  rw [memory_below_iff] at h ⊢
  intro d hd
  rcases memory_mem_set hd with rfl | hd
  · exact ha
  · exact h d hd

/-- A run of cells written below `n` keeps every listed cell below `n`. -/
theorem memory_writeBytes_below {n : Nat} (bs : List Byte) {a : Nat} {m : List Host.Cell}
    (h : Memory.below n m = true) (ha : a + bs.length ≤ n) : Memory.below n (Memory.writeBytes m a bs) = true := by
  induction bs generalizing m a with
  | nil => exact h
  | cons b bs ih =>
    simp only [List.length_cons] at ha
    exact ih (memory_set_below h (by omega)) (by omega)

theorem memory_ofBytes_below {n : Nat} (bs : List Byte) {a : Nat} (ha : a + bs.length ≤ n) :
    Memory.below n (Memory.ofBytes a bs) = true := by
  rw [memory_below_iff]
  intro d hd
  have := memory_mem_ofBytes hd
  omega

theorem memory_get_below_head {c : Host.Cell} {m : List Host.Cell} (h : Memory.wf (c :: m) = true) {a : Nat}
    (ha : a ≤ c.1) : Memory.get? m a = none := by
  obtain ⟨hlt, -⟩ := (memory_wf_cons c m).1 h
  clear h
  induction m with
  | nil => rfl
  | cons d m ih =>
    have hd := hlt d (by simp)
    rw [memory_get_cons, if_neg (by omega)]
    exact ih fun e he => hlt e (by simp [he])

/-- Two buffers in canonical form with equal contents are equal data. -/
theorem memory_eq_of_get {m m' : List Host.Cell} (h : Memory.wf m = true) (h' : Memory.wf m' = true)
    (e : ∀ a, Memory.get? m a = Memory.get? m' a) : m = m' := by
  induction m generalizing m' with
  | nil =>
    cases m' with
    | nil => rfl
    | cons c m' => simpa [memory_get_cons] using e c.1
  | cons c m ih =>
    cases m' with
    | nil => simpa [memory_get_cons] using e c.1
    | cons d m' =>
      have hc := e c.1
      have hd := e d.1
      rw [memory_get_cons, memory_get_cons, if_pos rfl] at hc hd
      have hk : c.1 = d.1 := by
        rcases lt_trichotomy c.1 d.1 with hlt | heq | hgt
        · rw [if_neg (by omega), memory_get_below_head h' (by omega)] at hc
          exact absurd hc (by simp)
        · exact heq
        · rw [if_neg (by omega), memory_get_below_head h (by omega)] at hd
          exact absurd hd (by simp)
      rw [if_pos hk.symm] at hc
      have hcd : c = d := Prod.ext hk (by simpa using hc)
      subst hcd
      congr 1
      refine ih ((memory_wf_cons c m).1 h).2 ((memory_wf_cons c m').1 h').2 fun a => ?_
      by_cases ha : c.1 = a
      · subst ha
        rw [memory_get_below_head h (le_refl _), memory_get_below_head h' (le_refl _)]
      · simpa [memory_get_cons, ha] using e a

end Sys2Proof.Machine
end

