-- ==== Sys2Proof/Laws/State.lean ====
section
/-! SUPPORT. What each named update of the state does to each field: one lemma per field and update, true by rfl, so that no
proof unfolds a record update. -/

namespace Sys2Proof.Machine

/-! ## setStatus -/

@[simp] theorem setStatus_cfg (s : State) (ph : Phase) (d : Bool) (e : BitVec 2) (r : Bool) : (s.setStatus ph d e r).cfg = s.cfg := rfl
@[simp] theorem setStatus_cmd (s : State) (ph : Phase) (d : Bool) (e : BitVec 2) (r : Bool) : (s.setStatus ph d e r).cmd = s.cmd := rfl
@[simp] theorem setStatus_done (s : State) (ph : Phase) (d : Bool) (e : BitVec 2) (r : Bool) : (s.setStatus ph d e r).done = d := rfl
@[simp] theorem setStatus_err (s : State) (ph : Phase) (d : Bool) (e : BitVec 2) (r : Bool) : (s.setStatus ph d e r).err = e := rfl
@[simp] theorem setStatus_rej (s : State) (ph : Phase) (d : Bool) (e : BitVec 2) (r : Bool) : (s.setStatus ph d e r).rej = r := rfl
@[simp] theorem setStatus_inLen (s : State) (ph : Phase) (d : Bool) (e : BitVec 2) (r : Bool) : (s.setStatus ph d e r).inLen = s.inLen := rfl
@[simp] theorem setStatus_outLen (s : State) (ph : Phase) (d : Bool) (e : BitVec 2) (r : Bool) : (s.setStatus ph d e r).outLen = s.outLen := rfl
@[simp] theorem setStatus_ibuf (s : State) (ph : Phase) (d : Bool) (e : BitVec 2) (r : Bool) : (s.setStatus ph d e r).ibuf = s.ibuf := rfl
@[simp] theorem setStatus_obuf (s : State) (ph : Phase) (d : Bool) (e : BitVec 2) (r : Bool) : (s.setStatus ph d e r).obuf = s.obuf := rfl
@[simp] theorem setStatus_phase (s : State) (ph : Phase) (d : Bool) (e : BitVec 2) (r : Bool) : (s.setStatus ph d e r).phase = ph := rfl
@[simp] theorem setStatus_eop (s : State) (ph : Phase) (d : Bool) (e : BitVec 2) (r : Bool) : (s.setStatus ph d e r).eop = s.eop := rfl
@[simp] theorem setStatus_en (s : State) (ph : Phase) (d : Bool) (e : BitVec 2) (r : Bool) : (s.setStatus ph d e r).en = s.en := rfl
@[simp] theorem setStatus_ipos (s : State) (ph : Phase) (d : Bool) (e : BitVec 2) (r : Bool) : (s.setStatus ph d e r).ipos = s.ipos := rfl
@[simp] theorem setStatus_opos (s : State) (ph : Phase) (d : Bool) (e : BitVec 2) (r : Bool) : (s.setStatus ph d e r).opos = s.opos := rfl
@[simp] theorem setStatus_latch (s : State) (ph : Phase) (d : Bool) (e : BitVec 2) (r : Bool) : (s.setStatus ph d e r).latch = s.latch := rfl
@[simp] theorem setStatus_resetPin (s : State) (ph : Phase) (d : Bool) (e : BitVec 2) (r : Bool) : (s.setStatus ph d e r).resetPin = s.resetPin := rfl
@[simp] theorem setStatus_turns (s : State) (ph : Phase) (d : Bool) (e : BitVec 2) (r : Bool) : (s.setStatus ph d e r).turns = s.turns := rfl
@[simp] theorem setStatus_readData (s : State) (ph : Phase) (d : Bool) (e : BitVec 2) (r : Bool) : (s.setStatus ph d e r).readData = s.readData := rfl
@[simp] theorem setStatus_hazards (s : State) (ph : Phase) (d : Bool) (e : BitVec 2) (r : Bool) : (s.setStatus ph d e r).hazards = s.hazards := rfl
@[simp] theorem setStatus_draw (s : State) (ph : Phase) (d : Bool) (e : BitVec 2) (r : Bool) : (s.setStatus ph d e r).draw = s.draw := rfl
@[simp] theorem setStatus_ibufDraw (s : State) (ph : Phase) (d : Bool) (e : BitVec 2) (r : Bool) : (s.setStatus ph d e r).ibufDraw = s.ibufDraw := rfl
@[simp] theorem setStatus_obufDraw (s : State) (ph : Phase) (d : Bool) (e : BitVec 2) (r : Bool) : (s.setStatus ph d e r).obufDraw = s.obufDraw := rfl

/-! ## reject -/

@[simp] theorem reject_cfg (s : State) : (reject s).cfg = s.cfg := rfl
@[simp] theorem reject_cmd (s : State) : (reject s).cmd = s.cmd := rfl
@[simp] theorem reject_done (s : State) : (reject s).done = true := rfl
@[simp] theorem reject_err (s : State) : (reject s).err = 0 := rfl
@[simp] theorem reject_rej (s : State) : (reject s).rej = true := rfl
@[simp] theorem reject_inLen (s : State) : (reject s).inLen = s.inLen := rfl
@[simp] theorem reject_outLen (s : State) : (reject s).outLen = 0 := rfl
@[simp] theorem reject_ibuf (s : State) : (reject s).ibuf = s.ibuf := rfl
@[simp] theorem reject_obuf (s : State) : (reject s).obuf = s.obuf := rfl
@[simp] theorem reject_phase (s : State) : (reject s).phase = .idle := rfl
@[simp] theorem reject_eop (s : State) : (reject s).eop = s.eop := rfl
@[simp] theorem reject_en (s : State) : (reject s).en = s.en := rfl
@[simp] theorem reject_ipos (s : State) : (reject s).ipos = s.ipos := rfl
@[simp] theorem reject_opos (s : State) : (reject s).opos = s.opos := rfl
@[simp] theorem reject_latch (s : State) : (reject s).latch = s.latch := rfl
@[simp] theorem reject_resetPin (s : State) : (reject s).resetPin = s.resetPin := rfl
@[simp] theorem reject_turns (s : State) : (reject s).turns = s.turns := rfl
@[simp] theorem reject_readData (s : State) : (reject s).readData = s.readData := rfl
@[simp] theorem reject_hazards (s : State) : (reject s).hazards = s.hazards := rfl
@[simp] theorem reject_draw (s : State) : (reject s).draw = s.draw := rfl
@[simp] theorem reject_ibufDraw (s : State) : (reject s).ibufDraw = s.ibufDraw := rfl
@[simp] theorem reject_obufDraw (s : State) : (reject s).obufDraw = s.obufDraw := rfl

/-! ## accept -/

@[simp] theorem accept_cfg (s : State) (w : Word) : (accept w s).cfg = s.cfg := rfl
@[simp] theorem accept_cmd (s : State) (w : Word) : (accept w s).cmd = s.cmd := rfl
@[simp] theorem accept_done (s : State) (w : Word) : (accept w s).done = false := rfl
@[simp] theorem accept_err (s : State) (w : Word) : (accept w s).err = 0 := rfl
@[simp] theorem accept_rej (s : State) (w : Word) : (accept w s).rej = false := rfl
@[simp] theorem accept_inLen (s : State) (w : Word) : (accept w s).inLen = s.inLen := rfl
@[simp] theorem accept_outLen (s : State) (w : Word) : (accept w s).outLen = 0 := rfl
@[simp] theorem accept_ibuf (s : State) (w : Word) : (accept w s).ibuf = s.ibuf := rfl
@[simp] theorem accept_obuf (s : State) (w : Word) : (accept w s).obuf = s.obuf := rfl
@[simp] theorem accept_phase (s : State) (w : Word) : (accept w s).phase = .run := rfl
@[simp] theorem accept_eop (s : State) (w : Word) : (accept w s).eop = cmdOp w := rfl
@[simp] theorem accept_en (s : State) (w : Word) : (accept w s).en = s.inLen := rfl
@[simp] theorem accept_ipos (s : State) (w : Word) : (accept w s).ipos = 0 := rfl
@[simp] theorem accept_opos (s : State) (w : Word) : (accept w s).opos = 0 := rfl
@[simp] theorem accept_latch (s : State) (w : Word) : (accept w s).latch = [] := rfl
@[simp] theorem accept_resetPin (s : State) (w : Word) : (accept w s).resetPin = s.resetPin := rfl
@[simp] theorem accept_turns (s : State) (w : Word) : (accept w s).turns = s.turns := rfl
@[simp] theorem accept_readData (s : State) (w : Word) : (accept w s).readData = s.readData := rfl
@[simp] theorem accept_hazards (s : State) (w : Word) : (accept w s).hazards = s.hazards := rfl
@[simp] theorem accept_draw (s : State) (w : Word) : (accept w s).draw = s.draw := rfl
@[simp] theorem accept_ibufDraw (s : State) (w : Word) : (accept w s).ibufDraw = s.ibufDraw := rfl
@[simp] theorem accept_obufDraw (s : State) (w : Word) : (accept w s).obufDraw = s.obufDraw := rfl

/-! ## commitOk -/

@[simp] theorem commitOk_cfg (s : State) (out : List Byte) : (commitOk out s).cfg = s.cfg := rfl
@[simp] theorem commitOk_cmd (s : State) (out : List Byte) : (commitOk out s).cmd = s.cmd := rfl
@[simp] theorem commitOk_done (s : State) (out : List Byte) : (commitOk out s).done = true := rfl
@[simp] theorem commitOk_err (s : State) (out : List Byte) : (commitOk out s).err = 0 := rfl
@[simp] theorem commitOk_rej (s : State) (out : List Byte) : (commitOk out s).rej = false := rfl
@[simp] theorem commitOk_inLen (s : State) (out : List Byte) : (commitOk out s).inLen = s.inLen := rfl
@[simp] theorem commitOk_outLen (s : State) (out : List Byte) : (commitOk out s).outLen = BitVec.ofNat 18 out.length := rfl
@[simp] theorem commitOk_ibuf (s : State) (out : List Byte) : (commitOk out s).ibuf = s.ibuf := rfl
@[simp] theorem commitOk_obuf (s : State) (out : List Byte) : (commitOk out s).obuf = Memory.ofBytes 0 out := rfl
@[simp] theorem commitOk_phase (s : State) (out : List Byte) : (commitOk out s).phase = .idle := rfl
@[simp] theorem commitOk_eop (s : State) (out : List Byte) : (commitOk out s).eop = s.eop := rfl
@[simp] theorem commitOk_en (s : State) (out : List Byte) : (commitOk out s).en = s.en := rfl
@[simp] theorem commitOk_ipos (s : State) (out : List Byte) : (commitOk out s).ipos = s.ipos := rfl
@[simp] theorem commitOk_opos (s : State) (out : List Byte) : (commitOk out s).opos = s.opos := rfl
@[simp] theorem commitOk_latch (s : State) (out : List Byte) : (commitOk out s).latch = s.latch := rfl
@[simp] theorem commitOk_resetPin (s : State) (out : List Byte) : (commitOk out s).resetPin = s.resetPin := rfl
@[simp] theorem commitOk_turns (s : State) (out : List Byte) : (commitOk out s).turns = s.turns := rfl
@[simp] theorem commitOk_readData (s : State) (out : List Byte) : (commitOk out s).readData = s.readData := rfl
@[simp] theorem commitOk_hazards (s : State) (out : List Byte) : (commitOk out s).hazards = s.hazards := rfl
@[simp] theorem commitOk_draw (s : State) (out : List Byte) : (commitOk out s).draw = s.draw + 1 := rfl
@[simp] theorem commitOk_ibufDraw (s : State) (out : List Byte) : (commitOk out s).ibufDraw = s.ibufDraw := rfl
@[simp] theorem commitOk_obufDraw (s : State) (out : List Byte) : (commitOk out s).obufDraw = s.draw := rfl

/-! ## commitErr -/

@[simp] theorem commitErr_cfg (s : State) (k : ErrKind) : (commitErr k s).cfg = s.cfg := rfl
@[simp] theorem commitErr_cmd (s : State) (k : ErrKind) : (commitErr k s).cmd = s.cmd := rfl
@[simp] theorem commitErr_done (s : State) (k : ErrKind) : (commitErr k s).done = true := rfl
@[simp] theorem commitErr_err (s : State) (k : ErrKind) : (commitErr k s).err = errCode k := rfl
@[simp] theorem commitErr_rej (s : State) (k : ErrKind) : (commitErr k s).rej = false := rfl
@[simp] theorem commitErr_inLen (s : State) (k : ErrKind) : (commitErr k s).inLen = s.inLen := rfl
@[simp] theorem commitErr_outLen (s : State) (k : ErrKind) : (commitErr k s).outLen = 0 := rfl
@[simp] theorem commitErr_ibuf (s : State) (k : ErrKind) : (commitErr k s).ibuf = s.ibuf := rfl
@[simp] theorem commitErr_obuf (s : State) (k : ErrKind) : (commitErr k s).obuf = [] := rfl
@[simp] theorem commitErr_phase (s : State) (k : ErrKind) : (commitErr k s).phase = .idle := rfl
@[simp] theorem commitErr_eop (s : State) (k : ErrKind) : (commitErr k s).eop = s.eop := rfl
@[simp] theorem commitErr_en (s : State) (k : ErrKind) : (commitErr k s).en = s.en := rfl
@[simp] theorem commitErr_ipos (s : State) (k : ErrKind) : (commitErr k s).ipos = s.ipos := rfl
@[simp] theorem commitErr_opos (s : State) (k : ErrKind) : (commitErr k s).opos = s.opos := rfl
@[simp] theorem commitErr_latch (s : State) (k : ErrKind) : (commitErr k s).latch = s.latch := rfl
@[simp] theorem commitErr_resetPin (s : State) (k : ErrKind) : (commitErr k s).resetPin = s.resetPin := rfl
@[simp] theorem commitErr_turns (s : State) (k : ErrKind) : (commitErr k s).turns = s.turns := rfl
@[simp] theorem commitErr_readData (s : State) (k : ErrKind) : (commitErr k s).readData = s.readData := rfl
@[simp] theorem commitErr_hazards (s : State) (k : ErrKind) : (commitErr k s).hazards = s.hazards := rfl
@[simp] theorem commitErr_draw (s : State) (k : ErrKind) : (commitErr k s).draw = s.draw + 1 := rfl
@[simp] theorem commitErr_ibufDraw (s : State) (k : ErrKind) : (commitErr k s).ibufDraw = s.ibufDraw := rfl
@[simp] theorem commitErr_obufDraw (s : State) (k : ErrKind) : (commitErr k s).obufDraw = s.draw := rfl

/-! ## applyReset -/

@[simp] theorem applyReset_cfg (s : State) : (applyReset s).cfg = s.cfg := rfl
@[simp] theorem applyReset_cmd (s : State) : (applyReset s).cmd = 0 := rfl
@[simp] theorem applyReset_done (s : State) : (applyReset s).done = false := rfl
@[simp] theorem applyReset_err (s : State) : (applyReset s).err = 0 := rfl
@[simp] theorem applyReset_rej (s : State) : (applyReset s).rej = false := rfl
@[simp] theorem applyReset_inLen (s : State) : (applyReset s).inLen = 0 := rfl
@[simp] theorem applyReset_outLen (s : State) : (applyReset s).outLen = 0 := rfl
@[simp] theorem applyReset_ibuf (s : State) : (applyReset s).ibuf = [] := rfl
@[simp] theorem applyReset_obuf (s : State) : (applyReset s).obuf = [] := rfl
@[simp] theorem applyReset_phase (s : State) : (applyReset s).phase = .idle := rfl
@[simp] theorem applyReset_eop (s : State) : (applyReset s).eop = 0 := rfl
@[simp] theorem applyReset_en (s : State) : (applyReset s).en = 0 := rfl
@[simp] theorem applyReset_ipos (s : State) : (applyReset s).ipos = 0 := rfl
@[simp] theorem applyReset_opos (s : State) : (applyReset s).opos = 0 := rfl
@[simp] theorem applyReset_latch (s : State) : (applyReset s).latch = [] := rfl
@[simp] theorem applyReset_resetPin (s : State) : (applyReset s).resetPin = true := rfl
@[simp] theorem applyReset_turns (s : State) : (applyReset s).turns = s.turns := rfl
@[simp] theorem applyReset_readData (s : State) : (applyReset s).readData = none := rfl
@[simp] theorem applyReset_hazards (s : State) : (applyReset s).hazards = s.hazards := rfl
@[simp] theorem applyReset_draw (s : State) : (applyReset s).draw = s.draw + 1 := rfl
@[simp] theorem applyReset_ibufDraw (s : State) : (applyReset s).ibufDraw = s.draw := rfl
@[simp] theorem applyReset_obufDraw (s : State) : (applyReset s).obufDraw = s.draw := rfl

/-! ## releaseReset -/

@[simp] theorem releaseReset_cfg (s : State) : (releaseReset s).cfg = s.cfg := rfl
@[simp] theorem releaseReset_cmd (s : State) : (releaseReset s).cmd = s.cmd := rfl
@[simp] theorem releaseReset_done (s : State) : (releaseReset s).done = s.done := rfl
@[simp] theorem releaseReset_err (s : State) : (releaseReset s).err = s.err := rfl
@[simp] theorem releaseReset_rej (s : State) : (releaseReset s).rej = s.rej := rfl
@[simp] theorem releaseReset_inLen (s : State) : (releaseReset s).inLen = s.inLen := rfl
@[simp] theorem releaseReset_outLen (s : State) : (releaseReset s).outLen = s.outLen := rfl
@[simp] theorem releaseReset_ibuf (s : State) : (releaseReset s).ibuf = s.ibuf := rfl
@[simp] theorem releaseReset_obuf (s : State) : (releaseReset s).obuf = s.obuf := rfl
@[simp] theorem releaseReset_phase (s : State) : (releaseReset s).phase = s.phase := rfl
@[simp] theorem releaseReset_eop (s : State) : (releaseReset s).eop = s.eop := rfl
@[simp] theorem releaseReset_en (s : State) : (releaseReset s).en = s.en := rfl
@[simp] theorem releaseReset_ipos (s : State) : (releaseReset s).ipos = s.ipos := rfl
@[simp] theorem releaseReset_opos (s : State) : (releaseReset s).opos = s.opos := rfl
@[simp] theorem releaseReset_latch (s : State) : (releaseReset s).latch = s.latch := rfl
@[simp] theorem releaseReset_resetPin (s : State) : (releaseReset s).resetPin = false := rfl
@[simp] theorem releaseReset_turns (s : State) : (releaseReset s).turns = s.turns := rfl
@[simp] theorem releaseReset_readData (s : State) : (releaseReset s).readData = s.readData := rfl
@[simp] theorem releaseReset_hazards (s : State) : (releaseReset s).hazards = s.hazards := rfl
@[simp] theorem releaseReset_draw (s : State) : (releaseReset s).draw = s.draw := rfl
@[simp] theorem releaseReset_ibufDraw (s : State) : (releaseReset s).ibufDraw = s.ibufDraw := rfl
@[simp] theorem releaseReset_obufDraw (s : State) : (releaseReset s).obufDraw = s.obufDraw := rfl

/-! ## lose -/

@[simp] theorem lose_cfg (s : State) (h : Hazard) : (s.lose h).cfg = s.cfg := rfl
@[simp] theorem lose_cmd (s : State) (h : Hazard) : (s.lose h).cmd = s.cmd := rfl
@[simp] theorem lose_done (s : State) (h : Hazard) : (s.lose h).done = s.done := rfl
@[simp] theorem lose_err (s : State) (h : Hazard) : (s.lose h).err = s.err := rfl
@[simp] theorem lose_rej (s : State) (h : Hazard) : (s.lose h).rej = s.rej := rfl
@[simp] theorem lose_inLen (s : State) (h : Hazard) : (s.lose h).inLen = s.inLen := rfl
@[simp] theorem lose_outLen (s : State) (h : Hazard) : (s.lose h).outLen = s.outLen := rfl
@[simp] theorem lose_ibuf (s : State) (h : Hazard) : (s.lose h).ibuf = s.ibuf := rfl
@[simp] theorem lose_obuf (s : State) (h : Hazard) : (s.lose h).obuf = s.obuf := rfl
@[simp] theorem lose_phase (s : State) (h : Hazard) : (s.lose h).phase = s.phase := rfl
@[simp] theorem lose_eop (s : State) (h : Hazard) : (s.lose h).eop = s.eop := rfl
@[simp] theorem lose_en (s : State) (h : Hazard) : (s.lose h).en = s.en := rfl
@[simp] theorem lose_ipos (s : State) (h : Hazard) : (s.lose h).ipos = s.ipos := rfl
@[simp] theorem lose_opos (s : State) (h : Hazard) : (s.lose h).opos = s.opos := rfl
@[simp] theorem lose_latch (s : State) (h : Hazard) : (s.lose h).latch = s.latch := rfl
@[simp] theorem lose_resetPin (s : State) (h : Hazard) : (s.lose h).resetPin = s.resetPin := rfl
@[simp] theorem lose_turns (s : State) (h : Hazard) : (s.lose h).turns = s.turns := rfl
@[simp] theorem lose_readData (s : State) (h : Hazard) : (s.lose h).readData = s.readData := rfl
@[simp] theorem lose_hazards (s : State) (h : Hazard) : (s.lose h).hazards = h :: s.hazards := rfl
@[simp] theorem lose_draw (s : State) (h : Hazard) : (s.lose h).draw = s.draw := rfl
@[simp] theorem lose_ibufDraw (s : State) (h : Hazard) : (s.lose h).ibufDraw = s.ibufDraw := rfl
@[simp] theorem lose_obufDraw (s : State) (h : Hazard) : (s.lose h).obufDraw = s.obufDraw := rfl

/-! ## answer -/

@[simp] theorem answer_cfg (s : State) (v : Word) : (s.answer v).cfg = s.cfg := rfl
@[simp] theorem answer_cmd (s : State) (v : Word) : (s.answer v).cmd = s.cmd := rfl
@[simp] theorem answer_done (s : State) (v : Word) : (s.answer v).done = s.done := rfl
@[simp] theorem answer_err (s : State) (v : Word) : (s.answer v).err = s.err := rfl
@[simp] theorem answer_rej (s : State) (v : Word) : (s.answer v).rej = s.rej := rfl
@[simp] theorem answer_inLen (s : State) (v : Word) : (s.answer v).inLen = s.inLen := rfl
@[simp] theorem answer_outLen (s : State) (v : Word) : (s.answer v).outLen = s.outLen := rfl
@[simp] theorem answer_ibuf (s : State) (v : Word) : (s.answer v).ibuf = s.ibuf := rfl
@[simp] theorem answer_obuf (s : State) (v : Word) : (s.answer v).obuf = s.obuf := rfl
@[simp] theorem answer_phase (s : State) (v : Word) : (s.answer v).phase = s.phase := rfl
@[simp] theorem answer_eop (s : State) (v : Word) : (s.answer v).eop = s.eop := rfl
@[simp] theorem answer_en (s : State) (v : Word) : (s.answer v).en = s.en := rfl
@[simp] theorem answer_ipos (s : State) (v : Word) : (s.answer v).ipos = s.ipos := rfl
@[simp] theorem answer_opos (s : State) (v : Word) : (s.answer v).opos = s.opos := rfl
@[simp] theorem answer_latch (s : State) (v : Word) : (s.answer v).latch = s.latch := rfl
@[simp] theorem answer_resetPin (s : State) (v : Word) : (s.answer v).resetPin = s.resetPin := rfl
@[simp] theorem answer_turns (s : State) (v : Word) : (s.answer v).turns = s.turns := rfl
@[simp] theorem answer_readData (s : State) (v : Word) : (s.answer v).readData = some v := rfl
@[simp] theorem answer_hazards (s : State) (v : Word) : (s.answer v).hazards = s.hazards := rfl
@[simp] theorem answer_draw (s : State) (v : Word) : (s.answer v).draw = s.draw := rfl
@[simp] theorem answer_ibufDraw (s : State) (v : Word) : (s.answer v).ibufDraw = s.ibufDraw := rfl
@[simp] theorem answer_obufDraw (s : State) (v : Word) : (s.answer v).obufDraw = s.obufDraw := rfl

/-! ## dropTurn -/

@[simp] theorem dropTurn_cfg (s : State) : (s.dropTurn).cfg = s.cfg := rfl
@[simp] theorem dropTurn_cmd (s : State) : (s.dropTurn).cmd = s.cmd := rfl
@[simp] theorem dropTurn_done (s : State) : (s.dropTurn).done = s.done := rfl
@[simp] theorem dropTurn_err (s : State) : (s.dropTurn).err = s.err := rfl
@[simp] theorem dropTurn_rej (s : State) : (s.dropTurn).rej = s.rej := rfl
@[simp] theorem dropTurn_inLen (s : State) : (s.dropTurn).inLen = s.inLen := rfl
@[simp] theorem dropTurn_outLen (s : State) : (s.dropTurn).outLen = s.outLen := rfl
@[simp] theorem dropTurn_ibuf (s : State) : (s.dropTurn).ibuf = s.ibuf := rfl
@[simp] theorem dropTurn_obuf (s : State) : (s.dropTurn).obuf = s.obuf := rfl
@[simp] theorem dropTurn_phase (s : State) : (s.dropTurn).phase = s.phase := rfl
@[simp] theorem dropTurn_eop (s : State) : (s.dropTurn).eop = s.eop := rfl
@[simp] theorem dropTurn_en (s : State) : (s.dropTurn).en = s.en := rfl
@[simp] theorem dropTurn_ipos (s : State) : (s.dropTurn).ipos = s.ipos := rfl
@[simp] theorem dropTurn_opos (s : State) : (s.dropTurn).opos = s.opos := rfl
@[simp] theorem dropTurn_latch (s : State) : (s.dropTurn).latch = s.latch := rfl
@[simp] theorem dropTurn_resetPin (s : State) : (s.dropTurn).resetPin = s.resetPin := rfl
@[simp] theorem dropTurn_turns (s : State) : (s.dropTurn).turns = s.turns.tail := rfl
@[simp] theorem dropTurn_readData (s : State) : (s.dropTurn).readData = s.readData := rfl
@[simp] theorem dropTurn_hazards (s : State) : (s.dropTurn).hazards = s.hazards := rfl
@[simp] theorem dropTurn_draw (s : State) : (s.dropTurn).draw = s.draw := rfl
@[simp] theorem dropTurn_ibufDraw (s : State) : (s.dropTurn).ibufDraw = s.ibufDraw := rfl
@[simp] theorem dropTurn_obufDraw (s : State) : (s.dropTurn).obufDraw = s.obufDraw := rfl

/-! ## takeGroup -/

@[simp] theorem takeGroup_cfg (s : State) : (takeGroup s).cfg = s.cfg := rfl
@[simp] theorem takeGroup_cmd (s : State) : (takeGroup s).cmd = s.cmd := rfl
@[simp] theorem takeGroup_done (s : State) : (takeGroup s).done = s.done := rfl
@[simp] theorem takeGroup_err (s : State) : (takeGroup s).err = s.err := rfl
@[simp] theorem takeGroup_rej (s : State) : (takeGroup s).rej = s.rej := rfl
@[simp] theorem takeGroup_inLen (s : State) : (takeGroup s).inLen = s.inLen := rfl
@[simp] theorem takeGroup_outLen (s : State) : (takeGroup s).outLen = s.outLen := rfl
@[simp] theorem takeGroup_ibuf (s : State) : (takeGroup s).ibuf = s.ibuf := rfl
@[simp] theorem takeGroup_obuf (s : State) : (takeGroup s).obuf = s.obuf := rfl
@[simp] theorem takeGroup_phase (s : State) : (takeGroup s).phase = s.phase := rfl
@[simp] theorem takeGroup_eop (s : State) : (takeGroup s).eop = s.eop := rfl
@[simp] theorem takeGroup_en (s : State) : (takeGroup s).en = s.en := rfl
@[simp] theorem takeGroup_ipos (s : State) : (takeGroup s).ipos = s.ipos + BitVec.ofNat 17 (nextGroup s).length := rfl
@[simp] theorem takeGroup_opos (s : State) : (takeGroup s).opos = s.opos + BitVec.ofNat 18 (emit (opInstr s.eop) (nextGroup s)).length := rfl
@[simp] theorem takeGroup_latch (s : State) : (takeGroup s).latch = nextGroup s := rfl
@[simp] theorem takeGroup_resetPin (s : State) : (takeGroup s).resetPin = s.resetPin := rfl
@[simp] theorem takeGroup_turns (s : State) : (takeGroup s).turns = s.turns := rfl
@[simp] theorem takeGroup_readData (s : State) : (takeGroup s).readData = s.readData := rfl
@[simp] theorem takeGroup_hazards (s : State) : (takeGroup s).hazards = s.hazards := rfl
@[simp] theorem takeGroup_draw (s : State) : (takeGroup s).draw = s.draw := rfl
@[simp] theorem takeGroup_ibufDraw (s : State) : (takeGroup s).ibufDraw = s.ibufDraw := rfl
@[simp] theorem takeGroup_obufDraw (s : State) : (takeGroup s).obufDraw = s.obufDraw := rfl

end Sys2Proof.Machine
end

