-- ==== Sys2Proof/Laws/Ops.lean ====
section
/-! SUPPORT. For each shared operation one lemma that says everything it can do; the provers cite it in place of the
definition. -/

namespace Sys2Proof.Machine

/-! ## Decoding and issue -/

/-- The decoder answers a command exactly for a well-formed word, and otherwise rejects it by name. -/
theorem decodeWord_cases (w : Word) :
    (cmdWordWellFormed w = true ∧ decodeWord w = .ok (opInstr (cmdOp w)))
      ∨ (cmdWordWellFormed w = false ∧ decodeWord w = .error (.reservedNotZero w)) := by
  unfold decodeWord
  cases h : cmdWordWellFormed w <;> simp

/-- A command word is issued in one of two ways (R101 to R103). -/
theorem issue_cases (w : Word) (s : State) :
    (cmdWordWellFormed w = true ∧ lengthWellFormed s.cfg s.inLen = true ∧ issue w s = accept w s)
      ∨ ((cmdWordWellFormed w = false ∨ lengthWellFormed s.cfg s.inLen = false) ∧ issue w s = reject s) := by
  unfold issue
  rcases decodeWord_cases w with ⟨hw, he⟩ | ⟨hw, he⟩ <;> rw [he]
  · cases hl : lengthWellFormed s.cfg s.inLen <;> simp [hw]
  · simp [hw]

theorem lengthWellFormed_iff (p : Params) (l : BitVec 17) :
    lengthWellFormed p l = true ↔ l.toNat ≤ p.ibufSize := by simp [lengthWellFormed]

theorem opInstr_instrOp (i : Instr) : opInstr (instrOp i) = i := by cases i <;> rfl

theorem instrOp_opInstr (op : BitVec 2) : instrOp (opInstr op) = op := by
  revert op
  decide

/-- The size of IBUF, and of OBUF (R9, R10). -/
theorem ibufSize_bounds (p : Params) : 1 ≤ p.ibufSize ∧ p.ibufSize ≤ 65536 := by
  have := p.ibufLast.isLt
  unfold Params.ibufSize
  omega

theorem obufSize_bounds (p : Params) :
    2 * p.ibufSize ≤ p.obufSize ∧ 4 * ((p.ibufSize + 2) / 3) ≤ p.obufSize ∧ p.obufSize ≤ 131072 := by
  have := ibufSize_bounds p
  unfold Params.obufSize
  omega

/-! ## exec and the engine -/

/-- Every command commits the result of its transform over the latched input (R104, R106, R107). -/
theorem exec_eq (i : Instr) (s : State) : exec i s = .next (commit (transform i (input s)) s) := by
  cases i <;> rfl

/-- What a commit can be. -/
theorem commit_cases (r : Result) (s : State) :
    (∃ out, r = .ok out ∧ commit r s = commitOk out s) ∨ (∃ k, r = .err k ∧ commit r s = commitErr k s) := by
  cases r with
  | ok out => exact .inl ⟨out, rfl, rfl⟩
  | err k => exact .inr ⟨k, rfl, rfl⟩

/-- An engine step before the commit takes one group of a running command whose input is not in error, or changes nothing. -/
theorem workStep_cases (s : State) :
    workStep s = s
      ∨ (s.phase = .run ∧ (∃ out, transform (opInstr s.eop) (input s) = .ok out) ∧ loopEnded s = false
          ∧ workStep s = takeGroup s) := by
  unfold workStep
  cases hp : s.phase with
  | idle => exact .inl rfl
  | run =>
    cases ht : transform (opInstr s.eop) (input s) with
    | err k => exact .inl rfl
    | ok out =>
      cases hl : loopEnded s with
      | true => exact .inl (by simp)
      | false => exact .inr ⟨rfl, ⟨out, rfl⟩, rfl, by simp⟩

/-- The commit turn runs the latched command, or, on an idle engine, does nothing. -/
theorem engineCommit_cases (s : State) :
    (s.phase = .idle ∧ engineCommit s = .next s)
      ∨ (s.phase = .run ∧ engineCommit s = .next (commit (transform (opInstr s.eop) (input s)) s)) := by
  unfold engineCommit
  cases hp : s.phase with
  | idle => exact .inl ⟨rfl, rfl⟩
  | run => exact .inr ⟨rfl, exec_eq _ _⟩

/-! ## The bus -/

/-- What a supported access reaches (R52 to R64). -/
theorem busTarget_cases {p : Params} {off : Offset} {n : Nat} {t : Target} (h : busTarget p off n = some t) :
    (n = 1 ∨ n = 2 ∨ n = 4)
      ∧ ((∃ o, t = .reg o ∧ o = off.toNat ∧ o ≤ 0xFF ∧ n = 4 ∧ o % 4 = 0)
        ∨ (∃ a, t = .ibuf a ∧ off.toNat = 0x10000 + a ∧ off.toNat ≤ 0x1FFFF ∧ off.toNat % n = 0 ∧ a + n ≤ p.ibufSize)
        ∨ (∃ a, t = .obuf a ∧ off.toNat = 0x20000 + a ∧ off.toNat % n = 0 ∧ a + n ≤ p.obufSize)) := by
  unfold busTarget at h
  split at h
  · rename_i hn
    have hn' : n = 1 ∨ n = 2 ∨ n = 4 := by simpa [sizeWellFormed, or_assoc] using hn
    refine ⟨hn', ?_⟩
    split at h
    · split at h
      · rename_i hr hc
        exact .inl ⟨off.toNat, (Option.some.inj h).symm, rfl, hr, hc⟩
      · simp at h
    · split at h
      · split at h
        · rename_i hr hc
          exact .inr (.inl ⟨off.toNat - 0x10000, (Option.some.inj h).symm, by omega, by omega, hc⟩)
        · simp at h
      · split at h
        · split at h
          · rename_i hr hc
            exact .inr (.inr ⟨off.toNat - 0x20000, (Option.some.inj h).symm, by omega, hc⟩)
          · simp at h
        · simp at h
  · simp at h

/-- An aligned access of 1, 2 or 4 bytes at offset 0x10000 + a, wholly inside IBUF, reaches IBUF[a] on (R55, R60, R61). -/
theorem busTarget_ibuf {p : Params} {off : Offset} {n a : Nat} (ho : off.toNat = 0x10000 + a)
    (hn : n = 1 ∨ n = 2 ∨ n = 4) (hal : off.toNat % n = 0) (hle : a + n ≤ p.ibufSize) :
    busTarget p off n = some (.ibuf a) := by
  have := ibufSize_bounds p
  have hs : sizeWellFormed n = true := by simpa [sizeWellFormed, or_assoc] using hn
  unfold busTarget
  rw [if_pos hs, if_neg (by omega), if_pos (by omega), if_pos ⟨hal, by omega⟩, ho, Nat.add_sub_cancel_left]

/-- An aligned access of 1, 2 or 4 bytes at offset 0x20000 + a, wholly inside OBUF, reaches OBUF[a] on (R55, R60, R61). -/
theorem busTarget_obuf {p : Params} {off : Offset} {n a : Nat} (ho : off.toNat = 0x20000 + a)
    (hn : n = 1 ∨ n = 2 ∨ n = 4) (hal : off.toNat % n = 0) (hle : a + n ≤ p.obufSize) :
    busTarget p off n = some (.obuf a) := by
  have hs : sizeWellFormed n = true := by simpa [sizeWellFormed, or_assoc] using hn
  unfold busTarget
  rw [if_pos hs, if_neg (by omega), if_neg (by omega), if_pos (by omega), if_pos ⟨hal, by omega⟩, ho,
    Nat.add_sub_cancel_left]

/-- Everything a host access that answers a next state can do (R60, R61, R65 to R69). -/
theorem hostAccess_cases {a : Access} {s t : State} (h : hostAccess a s = .next t) :
    s.resetPin = false
      ∧ ((∃ v, t = s.answer v)
        ∨ (∃ v, s.phase = .run ∧ t = { s.answer v with draw := s.draw + 1 })
        ∨ (∃ w, a = .write 0x00000#18 4 w ∧ s.phase = .idle ∧ t = issue w { s with cmd := w })
        ∨ (∃ w, s.phase = .idle ∧ t = { s with inLen := w })
        ∨ (∃ i n v, s.phase = .idle ∧ i + n ≤ s.cfg.ibufSize
            ∧ t = { s with ibuf := Memory.writeBytes s.ibuf i (leBytes n v) })
        ∨ (∃ z, s.phase = .run ∧ t = s.lose z)
        ∨ t = s) := by
  unfold hostAccess at h
  split at h
  · cases h
  · rename_i hr
    refine ⟨by simpa using hr, ?_⟩
    cases a with
    | read off n =>
      simp only [memRead] at h
      cases hb : busTarget s.cfg off n with
      | none => simp [hb] at h
      | some tg =>
        cases tg with
        | reg o => simp only [hb] at h; cases h; exact .inl ⟨_, rfl⟩
        | ibuf i => simp only [hb, readIbuf] at h; cases h; exact .inl ⟨_, rfl⟩
        | obuf i =>
          simp only [hb, readObuf] at h
          cases hp : s.phase with
          | idle => simp only [hp] at h; cases h; exact .inl ⟨_, rfl⟩
          | run => simp only [hp] at h; cases h; exact .inr (.inl ⟨_, rfl, rfl⟩)
    | write off n v =>
      simp only [memWrite] at h
      cases hb : busTarget s.cfg off n with
      | none => simp [hb] at h
      | some tg =>
        cases tg with
        | reg o =>
          simp only [hb, regWrite] at h
          split at h
          · rename_i ho
            simp only [writeCmd] at h
            cases hp : s.phase with
            | idle =>
              have hoff : off = 0x00000#18 ∧ n = 4 := by
                rcases busTarget_cases hb with ⟨_, ⟨_, he, h1, _, h3, _⟩ | ⟨_, he, _⟩ | ⟨_, he, _⟩⟩ <;> cases he
                exact ⟨BitVec.eq_of_toNat_eq (by simpa [ho] using h1.symm), h3⟩
              obtain ⟨rfl, rfl⟩ := hoff
              simp only [hp] at h; cases h; exact .inr (.inr (.inl ⟨v, rfl, rfl, rfl⟩))
            | run => simp only [hp] at h; cases h; exact .inr (.inr (.inr (.inr (.inr (.inl ⟨_, rfl, rfl⟩)))))
          · split at h
            · simp only [writeInLen] at h
              cases hp : s.phase with
              | idle => simp only [hp] at h; cases h; exact .inr (.inr (.inr (.inl ⟨_, rfl, rfl⟩)))
              | run => simp only [hp] at h; cases h; exact .inr (.inr (.inr (.inr (.inr (.inl ⟨_, rfl, rfl⟩)))))
            · cases h; exact .inr (.inr (.inr (.inr (.inr (.inr rfl)))))
        | ibuf i =>
          have hi : i + n ≤ s.cfg.ibufSize := by
            rcases busTarget_cases hb with ⟨_, ⟨_, he, _⟩ | ⟨_, he, _, _, _, hle⟩ | ⟨_, he, _⟩⟩ <;> cases he
            exact hle
          simp only [hb, writeIbuf] at h
          cases hp : s.phase with
          | idle => simp only [hp] at h; cases h; exact .inr (.inr (.inr (.inr (.inl ⟨i, n, v, rfl, hi, rfl⟩))))
          | run => simp only [hp] at h; cases h; exact .inr (.inr (.inr (.inr (.inr (.inl ⟨_, rfl, rfl⟩)))))
        | obuf i => simp only [hb] at h; cases h; exact .inr (.inr (.inr (.inr (.inr (.inr rfl)))))

/-- A host access faults exactly when reset is released and the block does not support the access (R173, R180). -/
theorem hostAccess_fault {a : Access} {s : State} {r : Fault} (h : hostAccess a s = .fault r) :
    s.resetPin = false ∧
      match a with
      | .read off n => r = .busError off ∧ busTarget s.cfg off n = none
      | .write off n _ => r = .busError off ∧ busTarget s.cfg off n = none := by
  unfold hostAccess at h
  split at h
  · cases h
  · rename_i hr
    refine ⟨by simpa using hr, ?_⟩
    cases a with
    | read off n =>
      simp only [memRead] at h
      cases hb : busTarget s.cfg off n with
      | none => simp only [hb] at h; cases h; exact ⟨rfl, hb⟩
      | some tg => cases tg <;> simp [hb] at h
    | write off n v =>
      simp only [memWrite] at h
      cases hb : busTarget s.cfg off n with
      | none => simp only [hb] at h; cases h; exact ⟨rfl, hb⟩
      | some tg => cases tg <;> simp [hb] at h

/-! ## Operands -/

theorem leBytes_length (n : Nat) (v : Word) : (leBytes n v).length = n := by simp [leBytes]

theorem leBytes_getElem? (n k : Nat) (v : Word) :
    (leBytes n v)[k]? = if k < n then some (v.extractLsb' (8 * k) 8) else none := by
  by_cases h : k < n <;> simp [leBytes, h]

theorem ibufTake_length (s : State) (n : Nat) : (ibufTake s n).length = n := by simp [ibufTake]

theorem input_length (s : State) : (input s).length = s.en.toNat := ibufTake_length s _

theorem ibufTake_getElem? (s : State) (n i : Nat) : (ibufTake s n)[i]? = if i < n then some (ibufByte s i) else none := by
  by_cases h : i < n <;> simp [ibufTake, h]

/-- The input of a command depends only on IBUF's bytes (R77). -/
theorem ibufTake_congr {s t : State} {n : Nat} (h : ∀ i < n, ibufByte s i = ibufByte t i) : ibufTake s n = ibufTake t n :=
  List.map_congr_left fun i hi => h i (List.mem_range.1 hi)

/-- A byte of IBUF depends only on the buffer and the draw of the last reset. -/
theorem ibufByte_congr {s t : State} (h : t.ibuf = s.ibuf) (hd : t.ibufDraw = s.ibufDraw) (i : Nat) :
    ibufByte t i = ibufByte s i := by simp [ibufByte, h, hd]

/-- A byte of OBUF depends only on the buffer and the draw of the last commit or reset. -/
theorem obufByte_congr {s t : State} (h : t.obuf = s.obuf) (hd : t.obufDraw = s.obufDraw) (j : Nat) :
    obufByte t j = obufByte s j := by simp [obufByte, h, hd]

/-- The OBUF bytes a success commits (R106). -/
theorem obufByte_commitOk (out : List Byte) (s : State) (j : Nat) :
    obufByte (commitOk out s) j = (out[j]?).getD (Config.obufUndefined s.draw j) := by
  simp [obufByte, memory_get_ofBytes]

end Sys2Proof.Machine
end

