-- ==== Sys2Proof/Laws/PerInstr.lean ====
section
/-! SUPPORT. The family RoundTrip of LAWS.json: what holds of each command as it is written. -/

namespace Sys2Proof.Laws.RoundTrip

/-- The command's word is well formed, its OP field is the command's OP value, and the decoder and the reader of table words
give the command back (R81, R82, R91). -/
def Statement (i : Instr) : Prop :=
  i.wellFormed = true ∧ cmdWordWellFormed (encode i) = true ∧ cmdOp (encode i) = instrOp i
    ∧ decodeTableWord 32 (encode i).toNat = some i

theorem b64enc : Statement .b64enc := by
  refine ⟨?_, ?_, ?_, ?_⟩ <;> decide

theorem b64dec : Statement .b64dec := by
  refine ⟨?_, ?_, ?_, ?_⟩ <;> decide

theorem b16enc : Statement .b16enc := by
  refine ⟨?_, ?_, ?_, ?_⟩ <;> decide

theorem b16dec : Statement .b16dec := by
  refine ⟨?_, ?_, ?_, ?_⟩ <;> decide

end Sys2Proof.Laws.RoundTrip
end

