-- ==== Sys2Proof/Laws/Step.lean ====
section
/-! SUPPORT. What one step can do: one inversion lemma, from which every invariant is derived. -/

namespace Sys2Proof.Machine

/-- Everything a step that answers a next state can do. -/
theorem step_cases {s t : State} (h : step s = .next t) :
    (s.turns = [] ∧ engineCommit s = .next t)
      ∨ (∃ a rest, s.turns = .host a :: rest ∧ hostAccess a s.dropTurn = .next t)
      ∨ (∃ rest, s.turns = .engineWork :: rest ∧ t = workStep s.dropTurn)
      ∨ (∃ rest, s.turns = .engineCommit :: rest ∧ engineCommit s.dropTurn = .next t)
      ∨ (∃ rest, s.turns = .resetOn :: rest ∧ t = applyReset s.dropTurn)
      ∨ (∃ rest, s.turns = .resetOff :: rest ∧ t = releaseReset s.dropTurn) := by
  unfold step at h
  cases ht : s.turns with
  | nil => simp only [ht] at h; exact .inl ⟨rfl, h⟩
  | cons m rest =>
    cases m with
    | host a => simp only [ht] at h; exact .inr (.inl ⟨a, rest, rfl, h⟩)
    | engineWork => simp only [ht] at h; cases h; exact .inr (.inr (.inl ⟨rest, rfl, rfl⟩))
    | engineCommit => simp only [ht] at h; exact .inr (.inr (.inr (.inl ⟨rest, rfl, h⟩)))
    | resetOn => simp only [ht] at h; cases h; exact .inr (.inr (.inr (.inr (.inl ⟨rest, rfl, rfl⟩))))
    | resetOff => simp only [ht] at h; cases h; exact .inr (.inr (.inr (.inr (.inr ⟨rest, rfl, rfl⟩))))

end Sys2Proof.Machine
end

