-- ==== Sys2Proof/Laws/Units.lean ====
section
/-! SUPPORT. The units and the STATUS word case by case: what each gives in each of the cases its rule names. -/

namespace Sys2Proof.Machine

/-! ## U64E, one lemma for each legal count (R121) -/

theorem u64e_three (b0 b1 b2 : Byte) :
    u64e b0 b1 b2 3 =
      (lut64 (b0.extractLsb' 2 6), lut64 (b0.extractLsb' 0 2 ++ b1.extractLsb' 4 4),
        lut64 (b1.extractLsb' 0 4 ++ b2.extractLsb' 6 2), lut64 (b2.extractLsb' 0 6)) := rfl

theorem u64e_two (b0 b1 b2 : Byte) :
    u64e b0 b1 b2 2 =
      (lut64 (b0.extractLsb' 2 6), lut64 (b0.extractLsb' 0 2 ++ b1.extractLsb' 4 4),
        lut64 (b1.extractLsb' 0 4 ++ 0#2), padCode) := by simp [u64e]

theorem u64e_one (b0 b1 b2 : Byte) :
    u64e b0 b1 b2 1 =
      (lut64 (b0.extractLsb' 2 6), lut64 (b0.extractLsb' 0 2 ++ 0#4), padCode, padCode) := by simp [u64e]

theorem u64eSymbols_length (b0 b1 b2 : Byte) (k : BitVec 2) : (u64eSymbols b0 b1 b2 k).length = 4 := rfl

/-! ## U64D and U16D on valid symbols (R132, R161) -/

theorem u64d_valid {s0 s1 s2 s3 : Byte} (h0 : inv64 s0 ≠ .invalid) (h1 : inv64 s1 ≠ .invalid)
    (h2 : inv64 s2 ≠ .invalid) (h3 : inv64 s3 ≠ .invalid) :
    u64d s0 s1 s2 s3 =
      { err := false
        b0 := val64 s0 ++ (val64 s1).extractLsb' 4 2
        b1 := (val64 s1).extractLsb' 0 4 ++ (val64 s2).extractLsb' 2 4
        b2 := (val64 s2).extractLsb' 0 2 ++ val64 s3
        k := if s2 = padCode then 1 else if s3 = padCode then 2 else 3
        fin := if s2 = padCode then true else if s3 = padCode then true else false } := by
  unfold u64d
  rw [if_neg (by tauto)]

theorem u64d_invalid {s0 s1 s2 s3 : Byte}
    (h : inv64 s0 = .invalid ∨ inv64 s1 = .invalid ∨ inv64 s2 = .invalid ∨ inv64 s3 = .invalid) :
    (u64d s0 s1 s2 s3).err = true := by
  unfold u64d
  rw [if_pos h]

theorem u16d_valid {h l : Byte} {hi lo : BitVec 4} (hh : inv16 h = .val hi) (hl : inv16 l = .val lo) :
    u16d h l = { err := false, b := hi ++ lo } := by simp [u16d, hh, hl, val16]

/-! ## The STATUS word the life cycle leaves (R102, R103, R106, R107) -/

theorem statusWord_reject (s : State) : statusWord (reject s) = 0x00000012#32 := by simp [statusWord, State.busy]

theorem statusWord_accept (w : Word) (s : State) : statusWord (accept w s) = 0x00000001#32 := by
  simp [statusWord, State.busy]

theorem statusWord_commitOk (out : List Byte) (s : State) : statusWord (commitOk out s) = 0x00000002#32 := by
  simp [statusWord, State.busy]

theorem statusWord_commitErr (k : ErrKind) (s : State) :
    statusWord (commitErr k s) = match k with
      | .invalidLength => 0x00000006#32
      | .invalidCharacter => 0x0000000A#32 := by
  cases k <;> simp [statusWord, State.busy, errCode]

end Sys2Proof.Machine
end

