-- ==== Sys2Proof/Tests/Slice0.lean ====
section
/-! SUPPORT. Tests: what the well-formedness checks refuse, the four command words written out bit by bit, one or two vectors of
spec/95_test_vectors.md for each command, a few bus vectors, and for each statement with hypotheses a witness that meets them.
Expected results come from the spec's tables, not from the model. -/

namespace Sys2Proof.Tests

open Sys2Proof Sys2Proof.Machine

/-! ## Helpers -/

/-- The next state of an outcome, if it is one. -/
def nextOf (o : Host.Outcome State Fault Refusal) : Option State :=
  match o with
  | .next s => some s
  | .fault _ => none
  | .refused _ => none

/-- The fault of an outcome, if it is one. -/
def faultOf (o : Host.Outcome State Fault Refusal) : Option Fault :=
  match o with
  | .next _ => none
  | .fault r => some r
  | .refused _ => none

/-- An idle block of IBUF_SIZE = 4096, as the vectors of L2.7 and L2.8 take it, with these input bytes and their number in
IN_LEN. -/
def idleWith (bytes : List Byte) : State :=
  { State.reset with cfg := ⟨4095⟩, ibuf := Memory.ofBytes 0 bytes, inLen := BitVec.ofNat 17 bytes.length }

/-- The same block with a command accepted. -/
def running (i : Instr) (bytes : List Byte) : State := accept (encode i) { idleWith bytes with cmd := encode i }

/-- A running block whose whole IBUF is its input. -/
def runningFull (i : Instr) (bytes : List Byte) : State :=
  { running i bytes with cfg := ⟨Fin.ofNat 65536 (bytes.length - 1)⟩ }

/-- A block after a success of `out`. -/
def idleOut (out : List Byte) : State := commitOk out (running .b64enc [])

/-- STATUS, OUT_LEN and the defined OBUF cells of a state. -/
def result (s : State) : Word × Nat × List Host.Cell := (statusWord s, s.outLen.toNat, s.obuf)

def man : List Byte := [0x4D#8, 0x61#8, 0x6E#8]
def twfu : List Byte := [0x54#8, 0x57#8, 0x46#8, 0x75#8]

/-! ## Well-formedness: one ill-formed term for each check -/

theorem test_wf_instr : Instr.wellFormed .b64enc = true ∧ Instr.wellFormed .b16dec = true := by decide

/-- E7, E6: a word with bit 2, or bit 31, set. -/
theorem test_wf_cmd_word :
    cmdWordWellFormed 0x00000003#32 = true ∧ cmdWordWellFormed 0x00000004#32 = false
      ∧ cmdWordWellFormed 0x80000001#32 = false := by decide

/-- No 3-byte, 0-byte or 8-byte access. -/
theorem test_wf_size : sizeWellFormed 3 = false ∧ sizeWellFormed 0 = false ∧ sizeWellFormed 8 = false := by decide

/-- M2, M4, M8, M9: sub-word and misaligned accesses. -/
theorem test_wf_access :
    Access.wellFormed (.read 0x00004#18 2) = false ∧ Access.wellFormed (.read 0x00002#18 4) = false
      ∧ Access.wellFormed (.read 0x10001#18 2) = false ∧ Access.wellFormed (.write 0x10002#18 4 0) = false
      ∧ Access.wellFormed (.read 0x10001#18 1) = true := by decide

/-- E4, E5: 4097 > IBUF_SIZE, 4096 is not. -/
theorem test_wf_length : lengthWellFormed ⟨4095⟩ 4097#17 = false ∧ lengthWellFormed ⟨4095⟩ 4096#17 = true := by decide

/-! ## Decoding: the patterns of 30_encoding.md R91, bit 31 first -/

theorem test_decode_b64enc : decodeWord 0b00000000000000000000000000000000#32 = .ok .b64enc := by rfl
theorem test_decode_b64dec : decodeWord 0b00000000000000000000000000000001#32 = .ok .b64dec := by rfl
theorem test_decode_b16enc : decodeWord 0b00000000000000000000000000000010#32 = .ok .b16enc := by rfl
theorem test_decode_b16dec : decodeWord 0b00000000000000000000000000000011#32 = .ok .b16dec := by rfl

theorem test_decode_reserved :
    decodeWord 0b00000000000000000000000000000100#32 = .error (.reservedNotZero 0x00000004#32) := by rfl

theorem test_decodeTableWord_drops_no_bit :
    decodeTableWord 32 1 = some .b64dec ∧ decodeTableWord 32 5 = none ∧ decodeTableWord 33 0x100000001 = none := by decide

/-! ## The commands: vectors of L1 and L2 -/

/-- V2: "Ma" gives "TWE=". -/
theorem test_b64enc_two_bytes :
    (nextOf (exec .b64enc (running .b64enc [0x4D#8, 0x61#8]))).map result
      = some (0x00000002#32, 4, [(0, 0x54#8), (1, 0x57#8), (2, 0x45#8), (3, 0x3D#8)]) := by decide

/-- E19 and V13: the sextets 0 to 63 give the whole alphabet in index order. -/
theorem test_b64enc_alphabet :
    b64Enc
      ([0x00#8, 0x10#8, 0x83#8, 0x10#8, 0x51#8, 0x87#8, 0x20#8, 0x92#8, 0x8B#8, 0x30#8, 0xD3#8, 0x8F#8,
        0x41#8, 0x14#8, 0x93#8, 0x51#8, 0x55#8, 0x97#8, 0x61#8, 0x96#8, 0x9B#8, 0x71#8, 0xD7#8, 0x9F#8]
        ++ [0x82#8, 0x18#8, 0xA3#8, 0x92#8, 0x59#8, 0xA7#8, 0xA2#8, 0x9A#8, 0xAB#8, 0xB2#8, 0xDB#8, 0xAF#8,
        0xC3#8, 0x1C#8, 0xB3#8, 0xD3#8, 0x5D#8, 0xB7#8, 0xE3#8, 0x9E#8, 0xBB#8, 0xF3#8, 0xDF#8, 0xBF#8])
      = "ABCDEFGHIJKLMNOPQRSTUVWXYZabcdefghijklmnopqrstuvwxyz0123456789+/".toList.map
          fun c => BitVec.ofNat 8 c.toNat := by decide

/-- "TQ==TWFu" gives 4D: decoding stops at the terminating group (R141). -/
theorem test_b64dec_stops :
    (nextOf (exec .b64dec (running .b64dec ([0x54#8, 0x51#8, 0x3D#8, 0x3D#8] ++ twfu)))).map result
      = some (0x00000002#32, 1, [(0, 0x4D#8)]) := by decide

/-- "TW!" gives InvalidLength, length first (R139). -/
theorem test_b64dec_length_first :
    (nextOf (exec .b64dec (running .b64dec [0x54#8, 0x57#8, 0x21#8]))).map result = some (0x00000006#32, 0, []) := by
  decide

/-- A5 5A gives "A55A". -/
theorem test_b16enc :
    (nextOf (exec .b16enc (running .b16enc [0xA5#8, 0x5A#8]))).map result
      = some (0x00000002#32, 4, [(0, 0x41#8), (1, 0x35#8), (2, 0x35#8), (3, 0x41#8)]) := by decide

/-- The empty input commits an empty output (program P4). -/
theorem test_b16enc_empty :
    (nextOf (exec .b16enc (running .b16enc []))).map result = some (0x00000002#32, 0, []) := by decide

/-- V7: "4D616E" gives "Man". -/
theorem test_b16dec :
    (nextOf (exec .b16dec (running .b16dec [0x34#8, 0x44#8, 0x36#8, 0x31#8, 0x36#8, 0x45#8]))).map result
      = some (0x00000002#32, 3, [(0, 0x4D#8), (1, 0x61#8), (2, 0x6E#8)]) := by decide

/-- "fF" gives InvalidCharacter (R162). -/
theorem test_b16dec_lowercase :
    (nextOf (exec .b16dec (running .b16dec [0x66#8, 0x46#8]))).map result = some (0x0000000A#32, 0, []) := by decide

/-! ## The bus: vectors of L2.7 and L2.8 -/

/-- E2: IN_LEN keeps 17 bits. -/
theorem test_in_len_seventeen_bits :
    (nextOf (hostAccess (.write 0x00008#18 4 0xFFFFFFFF#32) (idleWith []))).map State.inLen = some 0x1FFFF#17 := by
  decide

/-- E6: a malformed word is stored and rejected. -/
theorem test_reject_stores_the_word :
    (nextOf (hostAccess (.write 0x00000#18 4 0x80000001#32) (idleWith man))).map (fun t => (t.cmd, statusWord t, t.inLen))
      = some (0x80000001#32, 0x00000012#32, 3#17) := by decide

/-- E8: a reject leaves OBUF unchanged and OUT_LEN 0. -/
theorem test_reject_keeps_obuf :
    (nextOf (hostAccess (.write 0x00000#18 4 0x00000004#32) (idleOut twfu))).map result
      = some (0x00000012#32, 0, [(0, 0x54#8), (1, 0x57#8), (2, 0x46#8), (3, 0x75#8)]) := by decide

/-- M8, M11: a misaligned access, and one beyond IBUF_SIZE. -/
theorem test_bus_errors :
    faultOf (hostAccess (.read 0x10001#18 2) (idleWith man)) = some (.busError 0x10001#18)
      ∧ faultOf (hostAccess (.read 0x11000#18 1) (idleWith man)) = some (.busError 0x11000#18) := by decide

/-- M14: a little-endian write. -/
theorem test_little_endian_write :
    (nextOf (hostAccess (.write 0x10000#18 4 0x006E614D#32) (idleWith []))).map State.ibuf
      = some [(0, 0x4D#8), (1, 0x61#8), (2, 0x6E#8), (3, 0x00#8)] := by decide

/-- Program P1: a word read of OBUF after "TWFu". -/
theorem test_little_endian_read :
    (nextOf (hostAccess (.read 0x20000#18 4) (idleOut twfu))).map State.readData = some (some 0x75465754#32) := by decide

/-- E11, E12: writes while BUSY change neither IN_LEN nor IBUF. -/
theorem test_busy_writes :
    (nextOf (hostAccess (.write 0x00008#18 4 1#32) (running .b64enc man))).map State.inLen = some 3#17
      ∧ (nextOf (hostAccess (.write 0x10000#18 1 0#32) (running .b64enc man))).map (fun t => Memory.get? t.ibuf 0)
        = some (some 0x4D#8) := by decide

/-! ## Witnesses: for each statement with hypotheses, values that meet them -/

theorem test_witness_DecodeAndEncodeAgree : Instr.wellFormed .b16dec = true ∧ decodeWord 3#32 = .ok .b16dec := ⟨rfl, rfl⟩

/-- "==AB" gives 00 00 01 and "A=BC" gives 00 00 42 (L2.4): symbols and values that meet the hypotheses, and the bytes. -/
theorem test_witness_U64dShiftFormulas :
    (0x41#8 : Byte) = lut64 0 ∧ (0x42#8 : Byte) = lut64 1 ∧ (0x43#8 : Byte) = lut64 2
      ∧ u64dBytes (u64d 0x3D#8 0x3D#8 0x41#8 0x42#8) = [0x00#8, 0x00#8, 0x01#8]
      ∧ u64dBytes (u64d 0x41#8 0x3D#8 0x42#8 0x43#8) = [0x00#8, 0x00#8, 0x42#8] := by decide

/-- "TQ=A", "TWE=", "TWFu": the three clauses; "T!Fu": the error. -/
theorem test_witness_U64dTermination :
    ((u64d 0x54#8 0x51#8 0x3D#8 0x41#8).err = false)
      ∧ ((u64d 0x54#8 0x57#8 0x45#8 0x3D#8).err = false ∧ (0x45#8 : Byte) ≠ 0x3D#8)
      ∧ ((u64d 0x54#8 0x57#8 0x46#8 0x75#8).err = false ∧ (0x46#8 : Byte) ≠ 0x3D#8 ∧ (0x75#8 : Byte) ≠ 0x3D#8)
      ∧ (u64d 0x54#8 0x21#8 0x46#8 0x75#8).err = true := by decide

/-- The last group at each of its three lengths. -/
theorem test_witness_B64EncGroups :
    (man[3 * 0]? = some 0x4D#8 ∧ man[3 * 0 + 1]? = some 0x61#8 ∧ man[3 * 0 + 2]? = some 0x6E#8)
      ∧ ((man ++ man).take 5)[3 * 1]? = some 0x4D#8 ∧ ((man ++ man).take 5)[3 * 1 + 1]? = some 0x61#8
      ∧ ((man ++ man).take 5)[3 * 1 + 2]? = none
      ∧ ((man ++ man).take 4)[3 * 1]? = some 0x4D#8 ∧ ((man ++ man).take 4)[3 * 1 + 1]? = none := by decide

theorem test_witness_B64EncAlphabet : (0x3D#8 : Byte) ∈ b64Enc [0x4D#8] ∧ (0x54#8 : Byte) ∈ b64Enc [0x4D#8] := by decide

/-- "TWFuTQ==" before "TWFu", and "TWE=" before nothing. -/
theorem test_witness_B64DecStops :
    (twfu.length % 4 = 0 ∧ b64Dec (twfu ++ [0x54#8, 0x51#8, 0x3D#8, 0x3D#8]) = .ok (man ++ [0x4D#8])
        ∧ ∀ c ∈ twfu, inv64 c ≠ .invalid)
      ∧ b64Dec ([] ++ [0x54#8, 0x57#8, 0x45#8, 0x3D#8]) = .ok [0x4D#8, 0x61#8] := by decide

/-- No terminating group (and no group at all); the last group ending at its third, then at its fourth symbol. -/
theorem test_witness_B64DecLength :
    (b64Dec [] = .ok [] ∧ b64Dec twfu = .ok man ∧ ∀ g < 1, twfu[4 * g + 2]? ≠ some 0x3D#8 ∧ twfu[4 * g + 3]? ≠ some 0x3D#8)
      ∧ b64Dec (twfu ++ [0x54#8, 0x51#8, 0x3D#8, 0x3D#8]) = .ok (man ++ [0x4D#8])
      ∧ (twfu ++ [0x54#8, 0x51#8, 0x3D#8, 0x3D#8])[4 * 1 + 2]? = some 0x3D#8
      ∧ b64Dec [0x54#8, 0x57#8, 0x45#8, 0x3D#8] = .ok [0x4D#8, 0x61#8]
      ∧ ([0x54#8, 0x57#8, 0x45#8, 0x3D#8] : List Byte)[4 * 0 + 2]? ≠ some 0x3D#8
      ∧ ([0x54#8, 0x57#8, 0x45#8, 0x3D#8] : List Byte)[4 * 0 + 3]? = some 0x3D#8 := by decide

theorem test_witness_Base16TextIsCanonical : b16Dec [0x39#8, 0x41#8] = .ok [0x9A#8] := by decide

/-- An input of exactly IBUF_SIZE bytes. -/
theorem test_witness_OutputNeverOverflows :
    man.length ≤ (⟨2⟩ : Params).ibufSize ∧ transform .b64enc man = .ok twfu
      ∧ transform .b64dec [] = .ok [] := by decide

/-- The four commands with n = IBUF_SIZE, in each of their clauses: a success, an InvalidLength, an InvalidCharacter. -/
theorem test_witness_Commands :
    (runningFull .b64enc man).en.toNat = (runningFull .b64enc man).cfg.ibufSize
      ∧ (runningFull .b64dec man).en.toNat % 4 ≠ 0
      ∧ (runningFull .b64dec twfu).en.toNat % 4 = 0
      ∧ (∀ i < (runningFull .b64dec twfu).en.toNat, inv64 (ibufByte (runningFull .b64dec twfu) i) ≠ .invalid)
      ∧ inv64 (ibufByte (runningFull .b64dec [0x41#8, 0x41#8, 0x41#8, 0xFF#8]) 3) = .invalid
      ∧ (runningFull .b16dec man).en.toNat % 2 ≠ 0
      ∧ (∀ i < 2, inv16 (ibufByte (runningFull .b16dec [0x39#8, 0x41#8]) i) ≠ .invalid)
      ∧ inv16 (ibufByte (runningFull .b16dec [0x30#8, 0x80#8]) 1) = .invalid := by decide

/-- B64DEC's groups: one that goes on, and one that terminates after it. -/
theorem test_witness_B64decGroups :
    (u64d 0x54#8 0x57#8 0x46#8 0x75#8).fin = false ∧ (u64d 0x54#8 0x51#8 0x3D#8 0x3D#8).fin = true := by decide

theorem test_witness_CommitDefines :
    exec .b64dec (running .b64dec man) = .next (commitErr .invalidLength (running .b64dec man))
      ∧ (commitErr .invalidLength (running .b64dec man)).err ≠ 0
      ∧ (running .b64dec man).en.toNat ≤ (running .b64dec man).cfg.ibufSize :=
  ⟨rfl, by decide, by decide⟩

/-- Two states that differ in CMD and in IBUF beyond the input, with the same input. -/
theorem test_witness_CommitDependsOnInputOnly :
    let s := running .b64enc man
    let s' := { running .b64enc (man ++ [0x00#8]) with en := 3, cmd := 7 }
    s.en = s'.en ∧ (∀ j < s.en.toNat, ibufByte s j = ibufByte s' j) ∧ s.en.toNat ≤ s.cfg.ibufSize
      ∧ s ≠ s' ∧ exec .b64enc s = .next (commitOk (b64Enc (input s)) s)
      ∧ exec .b64enc s' = .next (commitOk (b64Enc (input s')) s') :=
  ⟨by decide, by decide, by decide, by decide, rfl, rfl⟩

/-- V8: FB FF, and the text "+/8=" copied into IBUF. -/
theorem test_witness_MachineBase64RoundTrip :
    let s := running .b64enc [0xFB#8, 0xFF#8]
    let t := commitOk (b64Enc (input s)) s
    let s' := running .b64dec [0x2B#8, 0x2F#8, 0x38#8, 0x3D#8]
    s.en.toNat ≤ s.cfg.ibufSize ∧ s'.en.toNat ≤ s'.cfg.ibufSize ∧ exec .b64enc s = .next t
      ∧ s'.en.toNat = t.outLen.toNat ∧ ∀ j < t.outLen.toNat, ibufByte s' j = obufByte t j :=
  ⟨by decide, by decide, rfl, by decide, by decide⟩

/-- 9A, and the text "9A" copied into IBUF. -/
theorem test_witness_MachineBase16RoundTrip :
    let s := running .b16enc [0x9A#8]
    let t := commitOk (b16Enc (input s)) s
    let s' := running .b16dec [0x39#8, 0x41#8]
    s.en.toNat ≤ s.cfg.ibufSize ∧ s'.en.toNat ≤ s'.cfg.ibufSize ∧ exec .b16enc s = .next t
      ∧ s'.en.toNat = t.outLen.toNat ∧ ∀ j < t.outLen.toNat, ibufByte s' j = obufByte t j :=
  ⟨by decide, by decide, rfl, by decide, by decide⟩

/-- The smallest malformed word; the smallest length that is too large (E4). -/
theorem test_witness_CmdWriteRejects :
    (idleWith man).resetPin = false ∧ (idleWith man).phase = .idle
      ∧ (0x00000004#32).extractLsb' 2 30 ≠ 0#30
      ∧ ({ idleWith [] with inLen := 4097 } : State).cfg.ibufSize
          < ({ idleWith [] with inLen := 4097 } : State).inLen.toNat := by decide

/-- The largest legal word, and the largest length that fits (E5). -/
theorem test_witness_CmdWriteAccepts :
    ({ idleWith [] with inLen := 4096 } : State).resetPin = false
      ∧ ({ idleWith [] with inLen := 4096 } : State).phase = .idle
      ∧ (0x00000003#32).extractLsb' 2 30 = 0#30
      ∧ ({ idleWith [] with inLen := 4096 } : State).inLen.toNat
          ≤ ({ idleWith [] with inLen := 4096 } : State).cfg.ibufSize := by decide

/-- What BusyWritesAreLost, IbufWrite, IbufRead, ObufIdleRead and ObufWriteIgnored ask of an access to cell `a` of a window. -/
abbrev accessHyps (base size : Nat) (off : Offset) (n a : Nat) : Prop :=
  off.toNat = base + a ∧ (n = 1 ∨ n = 2 ∨ n = 4) ∧ off.toNat % n = 0 ∧ a + n ≤ size

/-- A running block; the first cells and the last of IBUF, at each size. -/
theorem test_witness_BusyAccesses :
    (running .b64enc man).resetPin = false ∧ (running .b64enc man).phase = .run
      ∧ accessHyps 0x10000 (running .b64enc man).cfg.ibufSize 0x10000#18 4 0
      ∧ accessHyps 0x10000 (running .b64enc man).cfg.ibufSize 0x10FFE#18 2 4094
      ∧ accessHyps 0x10000 (running .b64enc man).cfg.ibufSize 0x10FFF#18 1 4095
      ∧ accessHyps 0x20000 (running .b64enc man).cfg.obufSize 0x20000#18 2 0
      ∧ accessHyps 0x20000 (running .b64enc man).cfg.obufSize 0x21FFC#18 4 8188 := by decide

/-- The same on an idle block (InLenWrite too), and the last cells of the largest IBUF and OBUF (M10 to M13). -/
theorem test_witness_IdleAccesses :
    (idleOut twfu).resetPin = false ∧ (idleOut twfu).phase = .idle
      ∧ accessHyps 0x10000 (idleOut twfu).cfg.ibufSize 0x10FFC#18 4 4092
      ∧ accessHyps 0x20000 (idleOut twfu).cfg.obufSize 0x21FFF#18 1 8191
      ∧ accessHyps 0x10000 (⟨65535⟩ : Params).ibufSize 0x1FFFF#18 1 65535
      ∧ accessHyps 0x20000 (⟨65535⟩ : Params).obufSize 0x3FFFC#18 4 131068 := by decide

/-- The edges of the register window, and of its reserved words. -/
theorem test_witness_RegisterWindow :
    ((0x00000#18).toNat ≤ 0xFC ∧ (0x00000#18).toNat % 4 = 0) ∧ ((0x000FC#18).toNat ≤ 0xFC ∧ (0x000FC#18).toNat % 4 = 0)
      ∧ 0x010 ≤ (0x00010#18).toNat ∧ 0x010 ≤ (0x000FC#18).toNat := by decide

/-- BusError: supported accesses at the edges of each region, and the first unsupported ones beyond (M10, M11, M12, M13). -/
theorem test_witness_BusError :
    (nextOf (hostAccess (.read 0x000FC#18 4) (idleWith man))).isSome = true
      ∧ (faultOf (hostAccess (.read 0x00100#18 4) (idleWith man))).isSome = true
      ∧ (nextOf (hostAccess (.write 0x10FFC#18 4 0) (idleWith man))).isSome = true
      ∧ (faultOf (hostAccess (.write 0x11000#18 1 0) (idleWith man))).isSome = true
      ∧ (nextOf (hostAccess (.read 0x21FFC#18 4) (idleWith man))).isSome = true
      ∧ (faultOf (hostAccess (.read 0x22000#18 2) (idleWith man))).isSome = true
      ∧ (faultOf (hostAccess (.read 0x10000#18 3) (idleWith man))).isSome = true := by decide

/-- Turns before the commit of "Man". -/
def scheduled (turns : List Turn) : State := { running .b64enc man with turns := turns }

theorem test_witness_StepRunsTheDecodedCommand :
    RunLegal (scheduled [.engineCommit]) ∧ (scheduled [.engineCommit]).phase = .run
      ∧ decodeWord (scheduled [.engineCommit]).cmd = .ok .b64enc ∧ (scheduled []).turns = [] :=
  ⟨by decide, by decide, rfl, rfl⟩

theorem test_witness_StepTakesTheOtherTurns :
    (scheduled [.resetOff]).turns = [.resetOff] ∧ (scheduled [.host (.read 0x00004#18 4)]).turns = [.host (.read 0x00004#18 4)]
      ∧ ({ idleWith man with turns := [.engineWork] } : State).phase = .idle := by decide

theorem test_witness_ResetAbortsTheCommand : (scheduled [.resetOn]).turns = [.resetOn] := by decide

/-- A running block meets the invariants, and has a step: EveryStepKeepsTheInvariant, EveryStepKeepsTheGroupLoop,
StatusTakesSixValues, WorkStepsAreInvisible. -/
theorem test_witness_Invariant :
    (scheduled [.engineWork]).Inv ∧ LoopLegal (scheduled [.engineWork])
      ∧ step (scheduled [.engineWork]) = .next (workStep (scheduled [])) :=
  ⟨by decide, fun _ => ⟨rfl, fun _ _ => rfl, fun h => by revert h; decide⟩, rfl⟩

/-- Four bytes, of which the first group has been taken. -/
def lastGroup : State := { running .b64enc (man ++ [0x4D#8]) with ipos := 3, turns := [.engineWork] }

/-- The first group, and the last, partial one. -/
theorem test_witness_IposAdvances :
    (scheduled [.engineWork]).Inv ∧ loopEnded (scheduled [.engineWork]) = false
      ∧ (nextOf (hostAccess (.write 0x00000#18 4 0#32) (idleWith man))).map State.phase = some .run
      ∧ lastGroup.Inv ∧ loopEnded lastGroup = false ∧ lastGroup.phase = .run :=
  ⟨by decide, by decide, by decide, by decide, by decide, by decide⟩

theorem test_witness_CommittedResultIsStable :
    let s := { idleOut twfu with turns := [Turn.host (.write 0x10000#18 1 0)] }
    s.phase = .idle ∧ (nextOf (step s)).isSome = true ∧ s.turns.head? ≠ some .resetOn
      ∧ ∀ n w, s.turns.head? ≠ some (.host (.write 0x00000#18 n w)) :=
  ⟨by decide, by decide, by decide, fun n w h => by
    have : (0x10000#18 : Offset) = 0x00000#18 := by injection h with h; injection h with h; injection h
    exact absurd this (by decide)⟩

theorem test_witness_EveryAcceptedCommandCommits :
    let s := scheduled [.engineWork, .host (.read 0x00004#18 4)]
    s.phase = .run ∧ s.resetPin = false
      ∧ ∀ m ∈ s.turns, m ≠ .resetOn
        ∧ (∀ off n, m = .host (.read off n) → (busTarget s.cfg off n).isSome = true)
        ∧ (∀ off n w, m = .host (.write off n w) → (busTarget s.cfg off n).isSome = true) := by
  refine ⟨by decide, by decide, fun m hm => ?_⟩
  have hm' : m = .engineWork ∨ m = .host (.read 0x00004#18 4) := by simpa [scheduled] using hm
  rcases hm' with rfl | rfl
  · exact ⟨by decide, (fun _ _ h => by cases h), (fun _ _ _ h => by cases h)⟩
  · refine ⟨by decide, fun off n h => ?_, (fun _ _ _ h => by cases h)⟩
    cases h
    decide

theorem test_witness_ResultDoesNotDependOnLatency :
    let s := { idleWith man with turns := [.host (.write 0x00000#18 4 (encode .b64enc)), .engineWork, .engineCommit] }
    s.resetPin = false ∧ s.phase = .idle ∧ s.inLen.toNat ≤ s.cfg.ibufSize
      ∧ s.turns = .host (.write 0x00000#18 4 (encode .b64enc)) :: (List.replicate 1 .engineWork ++ .engineCommit :: []) := by
  decide

/-- A legal CMD write after the whole input is written; a read of the last output cell, and of none beyond; while BUSY = 1, a
write to STATUS and to OBUF, and a read of CMD, of IN_LEN and of a reserved word (log entry 20). -/
theorem test_witness_DutifulAccessIsAnswered :
    hostDuty (.write 0x00000#18 4 0#32) (idleWith man) = true ∧ hostDuty (.read 0x20003#18 1) (idleOut twfu) = true
      ∧ hostDuty (.read 0x20004#18 1) (idleOut twfu) = false
      ∧ hostDuty (.write 0x00004#18 4 0#32) (running .b64enc man) = true
      ∧ hostDuty (.write 0x20000#18 1 0#32) (running .b64enc man) = true
      ∧ hostDuty (.read 0x00000#18 4) (running .b64enc man) = true
      ∧ hostDuty (.read 0x00008#18 4) (running .b64enc man) = true
      ∧ hostDuty (.read 0x000FC#18 4) (running .b64enc man) = true := by decide

/-- Two copies, at 0 and at 0x40000. -/
def twoCopies : System := ⟨[⟨0, idleWith man⟩, ⟨0x40000, idleWith []⟩]⟩

/-- The last offset of the first copy and the first of the second; an address beyond both. -/
theorem test_witness_Copies :
    twoCopies.wf ∧ twoCopies.route 0x3FFFF = some (0, 0x3FFFF#18) ∧ twoCopies.route 0x40000 = some (1, 0x00000#18)
      ∧ twoCopies.route 0x80000 = none
      ∧ twoCopies.stepAt 1 = .next twoCopies
      ∧ ∃ sys', twoCopies.access 0x40004 (.read 4) = .next sys' :=
  ⟨by decide, by decide, by decide, by decide, rfl, ⟨_, rfl⟩⟩

end Sys2Proof.Tests
end

section
/-! SUPPORT. How long the output of each transform is (00_scope.md R10; 41_base64_encode.md R125; 43_base16_encode.md R153),
and that no output is longer than OBUF. -/

namespace Sys2Proof.Machine

/-! ## What a success returns -/

/-- Both decoders have two tests before their group loop (R138, R163); past them the result is the loop's. -/
theorem eq_of_tests_ok {p q : Prop} [Decidable p] [Decidable q] {k l : ErrKind} {bytes out : List Byte}
    (h : (if p then Result.err k else if q then .err l else .ok bytes) = .ok out) : out = bytes := by
  split at h
  · cases h
  · split at h
    · cases h
    · exact (Result.ok.inj h).symm

theorem b64Dec_ok {inp out : List Byte} (h : b64Dec inp = .ok out) : out = b64DecGroups inp := eq_of_tests_ok h

theorem b16Dec_ok {inp out : List Byte} (h : b16Dec inp = .ok out) : out = b16DecPairs inp := eq_of_tests_ok h

/-- A transform that succeeds returns what its group loop emits (R123, R138, R152, R163). -/
theorem transform_ok {i : Instr} {inp out : List Byte} (h : transform i inp = .ok out) : out = emit i inp := by
  cases i with
  | b64enc | b16enc => exact (Result.ok.inj h).symm
  | b64dec => exact b64Dec_ok h
  | b16dec => exact b16Dec_ok h

/-! ## Lengths -/

/-- R125. -/
@[simp] theorem b64Enc_length (inp : List Byte) : (b64Enc inp).length = 4 * ((inp.length + 2) / 3) := by
  induction inp using b64Enc.induct with
  | case1 | case2 | case3 => simp [b64Enc, u64eSymbols_length]
  | case4 b0 b1 b2 rest ih =>
    simp only [b64Enc, List.length_append, u64eSymbols_length, ih, List.length_cons]
    omega

/-- R153. -/
@[simp] theorem b16Enc_length (inp : List Byte) : (b16Enc inp).length = 2 * inp.length := by
  induction inp with
  | nil => rfl
  | cons b rest ih =>
    simp only [b16Enc, List.length_cons, ih]
    omega

theorem u64dBytes_length_le (o : U64dOut) : (u64dBytes o).length ≤ 3 := List.length_take_le' _ _

/-- A group of four symbols gives at most three bytes, and a terminating group ends the output (R134, R138). -/
theorem b64DecGroups_length_le (inp : List Byte) : (b64DecGroups inp).length ≤ 3 * (inp.length / 4) := by
  induction inp using b64DecGroups.induct with
  | case1 s0 s1 s2 s3 rest ih =>
    have hgroup := u64dBytes_length_le (u64d s0 s1 s2 s3)
    simp only [b64DecGroups, List.length_append, List.length_cons]
    split
    · simp only [List.length_nil]
      omega
    · omega
  | case2 inp hshort => simp [b64DecGroups]

@[simp] theorem b16DecPairs_length (inp : List Byte) : (b16DecPairs inp).length = inp.length / 2 := by
  induction inp using b16DecPairs.induct with
  | case1 h l rest ih =>
    simp only [b16DecPairs, List.length_cons, ih]
    omega
  | case2 inp hshort =>
    match inp, hshort with
    | [], _ | [_], _ => simp [b16DecPairs]
    | h :: l :: rest, hshort => exact absurd rfl (hshort h l rest)

/-- The encoders give the longest outputs: no loop emits more than the longer of the two on the same input. -/
theorem emit_length_le (i : Instr) (inp : List Byte) :
    (emit i inp).length ≤ max (2 * inp.length) (4 * ((inp.length + 2) / 3)) := by
  cases i with
  | b64enc => exact (b64Enc_length inp).le.trans (le_max_right _ _)
  | b16enc => exact (b16Enc_length inp).le.trans (le_max_left _ _)
  | b64dec =>
    have := b64DecGroups_length_le inp
    simp only [emit]
    omega
  | b16dec =>
    simp only [emit, b16DecPairs_length]
    omega

/-! ## Against OBUF_SIZE -/

/-- A command that succeeds on an input that fits IBUF gives an output that fits OBUF (R10). -/
theorem transform_length_le_obufSize {p : Params} {i : Instr} {inp out : List Byte} (hfits : inp.length ≤ p.ibufSize)
    (h : transform i inp = .ok out) : out.length ≤ p.obufSize := by
  obtain ⟨hb16, hb64, -⟩ := obufSize_bounds p
  have hemit := emit_length_le i inp
  rw [← transform_ok h] at hemit
  omega

/-- The encoder whose output is the longer one fills OBUF from a full IBUF, whatever the bytes (R10). -/
theorem exists_encoder_fills_obuf (p : Params) {inp : List Byte} (hfull : inp.length = p.ibufSize) :
    ∃ i out, transform i inp = .ok out ∧ out.length = p.obufSize := by
  rcases max_choice (2 * p.ibufSize) (4 * ((p.ibufSize + 2) / 3)) with hmax | hmax
  · exact ⟨.b16enc, b16Enc inp, rfl, by rw [b16Enc_length, hfull, Params.obufSize, hmax]⟩
  · exact ⟨.b64enc, b64Enc inp, rfl, by rw [b64Enc_length, hfull, Params.obufSize, hmax]⟩

/-- Settles O23, from the length of each transform's output: the bound by the longer of the two encoders, and that encoder on
an IBUF full of zero bytes attains it. -/
theorem outputNeverOverflows : Obligations.OutputNeverOverflows := by
  intro p
  refine ⟨rfl, fun _ _ _ => transform_length_le_obufSize, ?_⟩
  have hfull : (List.replicate p.ibufSize (0x00#8 : Byte)).length = p.ibufSize := List.length_replicate
  obtain ⟨i, out, hok, hlen⟩ := exists_encoder_fills_obuf p hfull
  exact ⟨i, _, out, hfull, hok, hlen⟩

end Sys2Proof.Machine
end

section
/-! SUPPORT. Accesses to the register window as the host sees them (20_memory.md R52, R54, R69). -/

namespace Sys2Proof.Machine

/-- A 4-byte aligned access to the register window reaches the register word at its offset (R52, R63). -/
theorem busTarget_reg (p : Params) {off : Offset} (hle : off.toNat ≤ 0xFF) (hal : off.toNat % 4 = 0) :
    busTarget p off 4 = some (.reg off.toNat) := by
  simp [busTarget, sizeWellFormed, hle, hal]

/-- A supported register read is answered with RegRead of its offset. -/
theorem hostAccess_read_reg {s : State} {off : Offset} (hr : s.resetPin = false) (hle : off.toNat ≤ 0xFF)
    (hal : off.toNat % 4 = 0) : hostAccess (.read off 4) s = .next (s.answer (regRead off.toNat s)) := by
  simp [hostAccess, memRead, busTarget_reg s.cfg hle hal, hr]

/-- A supported register write is RegWrite at its offset. -/
theorem hostAccess_write_reg {s : State} {off : Offset} (w : Word) (hr : s.resetPin = false) (hle : off.toNat ≤ 0xFF)
    (hal : off.toNat % 4 = 0) : hostAccess (.write off 4 w) s = .next (regWrite off.toNat w s) := by
  simp [hostAccess, memWrite, busTarget_reg s.cfg hle hal, hr]

/-- R54. -/
theorem regRead_reserved {o : Nat} (h : 0x010 ≤ o) (s : State) : regRead o s = 0x00000000#32 := by
  unfold regRead
  rw [if_neg (by omega), if_neg (by omega), if_neg (by omega), if_neg (by omega)]
  rfl

/-- CMD and IN_LEN are the only register words a host write acts on (R26, R28, R54). -/
theorem regWrite_ignored {o : Nat} (hcmd : o ≠ 0x000) (hlen : o ≠ 0x008) (w : Word) (s : State) :
    regWrite o w s = s := by
  rw [regWrite, if_neg hcmd, if_neg hlen]

/-- A register write anywhere but at CMD and IN_LEN leaves the whole state unchanged, in either phase. -/
theorem hostAccess_write_ignored {s : State} {off : Offset} (w : Word) (hr : s.resetPin = false)
    (hle : off.toNat ≤ 0xFF) (hal : off.toNat % 4 = 0) (hcmd : off.toNat ≠ 0x000) (hlen : off.toNat ≠ 0x008) :
    hostAccess (.write off 4 w) s = .next s := by
  rw [hostAccess_write_reg w hr hle hal, regWrite_ignored hcmd hlen]

/-- Settles O38, from RegRead and RegWrite at a reserved offset; STATUS and OUT_LEN are two more offsets that RegWrite
ignores. -/
theorem reservedAndReadOnlyWords : Obligations.ReservedAndReadOnlyWords := by
  intro s w hr
  refine ⟨fun off hge hle hal => ⟨?_, ?_⟩, ?_, ?_⟩
  · rw [hostAccess_read_reg hr (by omega) hal, regRead_reserved hge]
    rfl
  · exact hostAccess_write_ignored w hr (by omega) hal (by omega) (by omega)
  · exact hostAccess_write_ignored w hr (by decide) (by decide) (by decide) (by decide)
  · exact hostAccess_write_ignored w hr (by decide) (by decide) (by decide) (by decide)

end Sys2Proof.Machine
end

section
/-! SUPPORT. Several copies of the block on one bus: what an update of one copy can do, and which copy a bus address reaches
(20_memory.md R51, R74; 60_exceptions.md R187, R188). -/

namespace Sys2Proof.Machine

/-! ## An update of one copy -/

/-- Everything an update of copy `k` that answers a next system can do: nothing where there is no copy `k`, otherwise copy
`k` alone takes its new state (R188). -/
theorem updateSlot_cases {sys sys' : System} {k : Nat} {f : State → Host.Outcome State Fault Refusal}
    (h : sys.updateSlot k f = .next sys') :
    (sys.slots[k]? = none ∧ sys' = sys)
      ∨ ∃ c t, sys.slots[k]? = some c ∧ f c.st = .next t ∧ sys' = { slots := sys.slots.set k { c with st := t } } := by
  unfold System.updateSlot at h
  cases hk : sys.slots[k]? with
  | none =>
    simp only [hk] at h
    cases h
    exact .inl ⟨rfl, rfl⟩
  | some c =>
    cases ht : f c.st with
    | next t =>
      simp only [hk, ht] at h
      cases h
      exact .inr ⟨c, t, rfl, ht, rfl⟩
    | fault r | refused r => simp [hk, ht] at h

/-- The frame of an update: the other copies keep their state and BASE. -/
theorem updateSlot_getElem?_of_ne {sys sys' : System} {k j : Nat} {f : State → Host.Outcome State Fault Refusal}
    (h : sys.updateSlot k f = .next sys') (hj : j ≠ k) : sys'.slots[j]? = sys.slots[j]? := by
  rcases updateSlot_cases h with ⟨-, rfl⟩ | ⟨c, t, -, -, rfl⟩
  · rfl
  · exact List.getElem?_set_ne hj.symm

/-- A bus operation that is routed to copy `k` is one host access to it. -/
theorem access_of_route {sys : System} {addr k : Nat} {off : Offset} (hroute : sys.route addr = some (k, off))
    (op : BusOp) : sys.access addr op = sys.updateSlot k (hostAccess (op.at off)) := by
  simp [System.access, hroute]

/-- Settles O59: a step and a routed access are both updates of copy `k`, whose frame is every other copy. -/
theorem copiesAreIndependent : Obligations.CopiesAreIndependent := by
  intro sys sys' k j addr op off
  refine ⟨updateSlot_getElem?_of_ne, fun hroute haccess => ?_⟩
  rw [access_of_route hroute] at haccess
  exact updateSlot_getElem?_of_ne haccess

/-! ## Routing -/

/-- An address in a copy's range is at the offset from its BASE, with no bit lost: the range is as long as the offset space
(R50, R51). -/
theorem ofNat_sub_base_eq_iff {c : Slot} {addr : Nat} {off : Offset} (h : c.reaches addr) :
    BitVec.ofNat 18 (addr - c.base) = off ↔ off.toNat = addr - c.base := by
  obtain ⟨hle, hlt⟩ := h
  have hsub : addr - c.base < 2 ^ 18 := by
    simp only [blockSpan] at hlt
    omega
  rw [← BitVec.toNat_inj, BitVec.toNat_ofNat, Nat.mod_eq_of_lt hsub, eq_comm]

/-- Two aligned copies that the same address reaches have the same BASE: aligned ranges are equal or disjoint (R12). -/
theorem base_eq_of_reaches {c d : Slot} {addr : Nat} (hc : c.base % blockSpan = 0) (hd : d.base % blockSpan = 0)
    (hca : c.reaches addr) (hda : d.reaches addr) : c.base = d.base := by
  obtain ⟨hcle, hclt⟩ := hca
  obtain ⟨hdle, hdlt⟩ := hda
  simp only [blockSpan] at *
  omega

/-- Routing finds the first copy that the address reaches; where every BASE is aligned and no two are equal, it is the only
one (R12, R51). -/
theorem routeIn_eq_some_iff {slots : List Slot} (hal : ∀ c ∈ slots, c.base % blockSpan = 0)
    (hnd : (slots.map Slot.base).Nodup) (addr k : Nat) (off : Offset) :
    routeIn slots addr = some (k, off) ↔
      ∃ c, slots[k]? = some c ∧ c.reaches addr ∧ off.toNat = addr - c.base := by
  induction slots generalizing k with
  | nil => simp [routeIn]
  | cons c rest ih =>
    obtain ⟨halc, halrest⟩ := List.forall_mem_cons.1 hal
    rw [List.map_cons, List.nodup_cons] at hnd
    obtain ⟨hfresh, hndrest⟩ := hnd
    unfold routeIn
    by_cases hc : c.reaches addr
    · rw [if_pos hc]
      cases k with
      | zero => simpa [ofNat_sub_base_eq_iff hc] using fun _ => hc
      | succ k =>
        have hnone : ¬ ∃ d, rest[k]? = some d ∧ d.reaches addr ∧ off.toNat = addr - d.base := by
          rintro ⟨d, hd, hda, -⟩
          have hmem : d ∈ rest := List.mem_of_getElem? hd
          have hbase : c.base = d.base := base_eq_of_reaches halc (halrest d hmem) hc hda
          exact hfresh (hbase ▸ List.mem_map_of_mem hmem)
        simpa using hnone
    · rw [if_neg hc]
      cases k with
      | zero => simp [hc]
      | succ k => simpa using ih halrest hndrest k

/-- Settles O60, from the routing over the list of copies of a well-formed bus. -/
theorem routingReachesExactlyOneCopy : Obligations.RoutingReachesExactlyOneCopy := by
  rintro sys addr k off ⟨-, hal, hnd⟩
  simpa [System.route, blockSpan, and_assoc] using routeIn_eq_some_iff hal hnd addr k off

end Sys2Proof.Machine
end

section
/-! SUPPORT. The command decoder as the inverse of the encoder over all 2^32 words (30_encoding.md R91, R92). -/

namespace Sys2Proof.Machine

/-- The two fields of a command word, RSVD above OP, are the whole word (R24). -/
theorem rsvd_append_cmdOp (w : Word) : w.extractLsb' 2 30 ++ cmdOp w = w :=
  BitVec.extractLsb'_append_extractLsb' (w := 30) (len := 2)

theorem cmdWordWellFormed_iff (w : Word) : cmdWordWellFormed w = true ↔ w.extractLsb' 2 30 = 0#30 := by
  simp [cmdWordWellFormed]

/-- A well-formed word is the encoding of the command its OP field selects. -/
theorem encode_opInstr_cmdOp {w : Word} (hw : cmdWordWellFormed w = true) : encode (opInstr (cmdOp w)) = w := by
  rw [cmdWordWellFormed_iff] at hw
  calc encode (opInstr (cmdOp w))
    _ = w.extractLsb' 2 30 ++ cmdOp w := by rw [encode, instrOp_opInstr, hw]
    _ = w := rsvd_append_cmdOp w

@[simp] theorem decodeWord_encode (i : Instr) : decodeWord (encode i) = .ok i := by
  cases i <;> rfl

theorem decodeWord_eq_ok_iff (w : Word) (i : Instr) : decodeWord w = .ok i ↔ w = encode i := by
  constructor
  · intro h
    rcases decodeWord_cases w with ⟨hw, hok⟩ | ⟨-, herr⟩
    · obtain rfl : opInstr (cmdOp w) = i := Except.ok.inj (hok.symm.trans h)
      exact (encode_opInstr_cmdOp hw).symm
    · exact nomatch herr.symm.trans h
  · rintro rfl
    exact decodeWord_encode i

theorem decodeWord_eq_error_iff (w : Word) :
    decodeWord w = .error (.reservedNotZero w) ↔ w.extractLsb' 2 30 ≠ 0#30 := by
  rw [Ne, ← cmdWordWellFormed_iff]
  rcases decodeWord_cases w with ⟨hw, h⟩ | ⟨hw, h⟩ <;> simp [hw, h]

/-- Settles O2: each of the four words is the encoding of its command, and a word decodes to a command exactly when it is that
command's encoding. -/
theorem decoderAcceptsExactlyTheFourWords : Obligations.DecoderAcceptsExactlyTheFourWords := fun w =>
  ⟨decodeWord_eq_ok_iff w .b64enc, decodeWord_eq_ok_iff w .b64dec, decodeWord_eq_ok_iff w .b16enc,
    decodeWord_eq_ok_iff w .b16dec, decodeWord_eq_error_iff w⟩

end Sys2Proof.Machine
end

section
/-! SUPPORT. The sextets of a group read as one 24-bit value (30_encoding.md R83), in the bytes U64E cuts them from
(41_base64_encode.md R121). -/

namespace Sys2Proof.Machine

/-! ## The bits of each byte in G = {b0, b1, b2} -/

theorem extractLsb'_group_b0 (b0 b1 b2 : Byte) (start len : Nat) :
    (b0 ++ b1 ++ b2).extractLsb' (16 + start) len = b0.extractLsb' start len := by
  rw [BitVec.extractLsb'_append_eq_of_le (by omega), BitVec.extractLsb'_append_eq_of_le (by omega)]
  congr 1
  omega

theorem extractLsb'_group_b1 (b0 b1 b2 : Byte) {start len : Nat} (h : start + len ≤ 8) :
    (b0 ++ b1 ++ b2).extractLsb' (8 + start) len = b1.extractLsb' start len := by
  rw [BitVec.extractLsb'_append_eq_of_le (by omega), BitVec.extractLsb'_append_eq_of_add_le (by omega),
    Nat.add_sub_cancel_left]

theorem extractLsb'_group_b2 (b0 b1 b2 : Byte) {start len : Nat} (h : start + len ≤ 8) :
    (b0 ++ b1 ++ b2).extractLsb' start len = b2.extractLsb' start len :=
  BitVec.extractLsb'_append_eq_of_add_le h

/-! ## Its four sextets: G[23:18] and G[5:0] lie in one byte, the middle two in two -/

theorem group_sextet0 (b0 b1 b2 : Byte) : (b0 ++ b1 ++ b2).extractLsb' 18 6 = b0.extractLsb' 2 6 :=
  extractLsb'_group_b0 b0 b1 b2 2 6

theorem group_sextet1 (b0 b1 b2 : Byte) :
    (b0 ++ b1 ++ b2).extractLsb' 12 6 = b0.extractLsb' 0 2 ++ b1.extractLsb' 4 4 :=
  calc (b0 ++ b1 ++ b2).extractLsb' 12 6
    _ = (b0 ++ b1 ++ b2).extractLsb' 16 2 ++ (b0 ++ b1 ++ b2).extractLsb' 12 4 :=
      (BitVec.extractLsb'_append_extractLsb'_eq_extractLsb' (len₂ := 2) (len₁ := 4) rfl).symm
    _ = b0.extractLsb' 0 2 ++ b1.extractLsb' 4 4 :=
      congrArg₂ _ (extractLsb'_group_b0 b0 b1 b2 0 2) (extractLsb'_group_b1 b0 b1 b2 (start := 4) (by decide))

theorem group_sextet2 (b0 b1 b2 : Byte) :
    (b0 ++ b1 ++ b2).extractLsb' 6 6 = b1.extractLsb' 0 4 ++ b2.extractLsb' 6 2 :=
  calc (b0 ++ b1 ++ b2).extractLsb' 6 6
    _ = (b0 ++ b1 ++ b2).extractLsb' 8 4 ++ (b0 ++ b1 ++ b2).extractLsb' 6 2 :=
      (BitVec.extractLsb'_append_extractLsb'_eq_extractLsb' (len₂ := 4) (len₁ := 2) rfl).symm
    _ = b1.extractLsb' 0 4 ++ b2.extractLsb' 6 2 :=
      congrArg₂ _ (extractLsb'_group_b1 b0 b1 b2 (start := 0) (by decide))
        (extractLsb'_group_b2 b0 b1 b2 (by decide))

theorem group_sextet3 (b0 b1 b2 : Byte) : (b0 ++ b1 ++ b2).extractLsb' 0 6 = b2.extractLsb' 0 6 :=
  extractLsb'_group_b2 b0 b1 b2 (by decide)

/-- Settles O6: U64E's sextets for each count are those of G, with a zero byte for each missing one. -/
theorem u64eMapsTheSextetsOfTheGroup : Obligations.U64eMapsTheSextetsOfTheGroup := by
  intro b0 b1 b2
  refine ⟨?_, ?_, ?_⟩
  · simp only [u64e_three, group_sextet0, group_sextet1, group_sextet2, group_sextet3]
  · simp only [u64e_two, padCode, group_sextet0, group_sextet1, group_sextet2, BitVec.extractLsb'_zero]
  · simp only [u64e_one, padCode, group_sextet0, group_sextet1, BitVec.extractLsb'_zero]

end Sys2Proof.Machine
end

section
/-! SUPPORT. The life cycle of a command as the host sees it: what its commit depends on (40_command_engine.md R111), and what
a CMD write on an idle block does (R101 to R103, R172). -/

namespace Sys2Proof.Machine

/-! ## What a commit depends on -/

theorem input_congr {s s' : State} (hen : s.en = s'.en) (hbytes : ∀ j < s.en.toNat, ibufByte s j = ibufByte s' j) :
    input s = input s' := by
  rw [input, input, ← hen]
  exact ibufTake_congr hbytes

theorem obufByte_commitOk_of_lt {out : List Byte} {j : Nat} (hj : j < out.length) (s : State) :
    obufByte (commitOk out s) j = out[j] := by
  rw [obufByte_commitOk, List.getElem?_eq_getElem hj, Option.getD_some]

/-- OUT_LEN counts no cell beyond the output. -/
theorem commitOk_outLen_le (out : List Byte) (s : State) : (commitOk out s).outLen.toNat ≤ out.length := by
  rw [commitOk_outLen, BitVec.toNat_ofNat]
  exact Nat.mod_le _ _

/-- The commit of one result leaves the same STATUS, OUT_LEN and output bytes in whatever state it is taken. -/
theorem commit_output_congr (r : Result) (s s' : State) :
    statusWord (commit r s) = statusWord (commit r s') ∧ (commit r s).outLen = (commit r s').outLen
      ∧ ∀ j < (commit r s).outLen.toNat, obufByte (commit r s) j = obufByte (commit r s') j := by
  cases r with
  | ok out =>
    refine ⟨?_, rfl, fun j hj => ?_⟩
    · exact (statusWord_commitOk out s).trans (statusWord_commitOk out s').symm
    · have hout : j < out.length := hj.trans_le (commitOk_outLen_le out s)
      exact (obufByte_commitOk_of_lt hout s).trans (obufByte_commitOk_of_lt hout s').symm
  | err k =>
    refine ⟨?_, rfl, fun j hj => absurd hj (Nat.not_lt_zero j)⟩
    exact (statusWord_commitErr k s).trans (statusWord_commitErr k s').symm

/-- Settles O30: equal inputs have one transform result, and a commit's output depends on the result alone. That the length
fits IBUF is not needed. -/
theorem commitDependsOnInputOnly : Obligations.CommitDependsOnInputOnly := by
  intro i s s' t t' hen hbytes _ ht ht'
  rw [exec_eq] at ht ht'
  cases ht
  cases ht'
  rw [input_congr hen hbytes]
  exact commit_output_congr _ s s'

/-! ## A CMD write on an idle block -/

/-- R23, R101: the word is stored whatever it is, and then issued. -/
theorem hostAccess_write_cmd_of_idle {s : State} (w : Word) (hr : s.resetPin = false) (hp : s.phase = .idle) :
    hostAccess (.write 0x00000#18 4 w) s = .next (issue w { s with cmd := w }) := by
  rw [hostAccess_write_reg w hr (by decide) (by decide)]
  simp [regWrite, writeCmd, hp]

theorem issue_eq_reject {w : Word} {s : State}
    (h : w.extractLsb' 2 30 ≠ 0#30 ∨ s.cfg.ibufSize < s.inLen.toNat) : issue w s = reject s := by
  rcases issue_cases w s with ⟨hw, hl, -⟩ | ⟨-, hreject⟩
  · rw [cmdWordWellFormed_iff] at hw
    rw [lengthWellFormed_iff] at hl
    exact absurd h (by simp [hw, hl])
  · exact hreject

theorem issue_eq_accept {w : Word} {s : State} (hw : w.extractLsb' 2 30 = 0#30)
    (hl : s.inLen.toNat ≤ s.cfg.ibufSize) : issue w s = accept w s := by
  rw [← cmdWordWellFormed_iff] at hw
  rw [← lengthWellFormed_iff] at hl
  rcases issue_cases w s with ⟨-, -, haccept⟩ | ⟨hbad, -⟩
  · exact haccept
  · exact absurd hbad (by simp [hw, hl])

/-- Reject on an idle block keeps the phase, so only STATUS and OUT_LEN change. -/
theorem reject_of_idle {s : State} (hp : s.phase = .idle) :
    reject s = { s with done := true, err := 0, rej := true, outLen := 0 } := by
  rw [reject, State.setStatus, ← hp]

/-- Settles O33: both causes lead to the same rejection, of the state in which the word is already stored. -/
theorem cmdWriteRejects : Obligations.CmdWriteRejects := by
  intro s w hr hp hbad
  refine ⟨reject { s with cmd := w }, ?_, ?_, statusWord_reject _⟩
  · exact (hostAccess_write_cmd_of_idle w hr hp).trans (congrArg Host.Outcome.next (issue_eq_reject hbad))
  · exact reject_of_idle hp

/-- Settles O34: the accept of the state in which the word is already stored. -/
theorem cmdWriteAccepts : Obligations.CmdWriteAccepts := by
  intro s w hr hp hw hl
  refine ⟨accept w { s with cmd := w }, ?_, rfl, statusWord_accept w _⟩
  exact (hostAccess_write_cmd_of_idle w hr hp).trans (congrArg Host.Outcome.next (issue_eq_accept hw hl))

end Sys2Proof.Machine
end

section
/-! SUPPORT. Base64 encoding: where each group's symbols stand in the output of B64Enc, which codes they are, and what B64ENC
commits (41_base64_encode.md R123 to R128). -/

namespace Sys2Proof.Machine

/-! ## What is left of a list from an index on -/

theorem drop_of_getElem?_eq_some {α : Type} {l : List α} {i : Nat} {x : α} (h : l[i]? = some x) :
    l.drop i = x :: l.drop (i + 1) := by
  rw [List.drop_eq_getElem?_toList_append, h]
  rfl

theorem drop_of_getElem?_eq_none {α : Type} {l : List α} {i : Nat} (h : l[i]? = none) : l.drop i = [] :=
  List.drop_of_length_le (List.getElem?_eq_none_iff.1 h)

/-! ## The groups of the output -/

/-- Three input bytes are four output symbols, so the output from group `g` on encodes the input from group `g` on (R124). -/
theorem b64Enc_drop (inp : List Byte) (g : Nat) : (b64Enc inp).drop (4 * g) = b64Enc (inp.drop (3 * g)) := by
  induction g generalizing inp with
  | zero => rfl
  | succ g ih =>
    match inp with
    | [] => simp [b64Enc]
    | [_] | [_, _] => simp [b64Enc, u64eSymbols_length, Nat.mul_succ]
    | b0 :: b1 :: b2 :: rest =>
      have hgroup : (u64eSymbols b0 b1 b2 3 ++ b64Enc rest).drop 4 = b64Enc rest := List.drop_left' rfl
      rw [b64Enc, Nat.mul_succ, Nat.add_comm, ← List.drop_drop, hgroup, ih, Nat.mul_succ]
      rfl

/-- The first four symbols are the first group's: its missing bytes are zero, and as many as it has are counted, up to three
(R123, R124). -/
theorem b64Enc_cons_take_four (b0 : Byte) (rest : List Byte) :
    (b64Enc (b0 :: rest)).take 4 =
      u64eSymbols b0 (rest[0]?.getD 0x00#8) (rest[1]?.getD 0x00#8) (BitVec.ofNat 2 (min 3 (rest.length + 1))) := by
  match rest with
  | [] => rfl
  | [b1] => rfl
  | b1 :: b2 :: rest =>
    have hk : min 3 ((b1 :: b2 :: rest).length + 1) = 3 := by simp
    rw [hk]
    rfl

/-- Group `g`'s symbols occupy the output positions 4g to 4g+3 (R124). -/
theorem b64Enc_group {inp : List Byte} {g : Nat} (h : 3 * g < inp.length) :
    ((b64Enc inp).drop (4 * g)).take 4 =
      u64eSymbols inp[3 * g] (inp[3 * g + 1]?.getD 0x00#8) (inp[3 * g + 2]?.getD 0x00#8)
        (BitVec.ofNat 2 (min 3 (inp.length - 3 * g))) := by
  have hlen : (inp.drop (3 * g + 1)).length + 1 = inp.length - 3 * g := by
    rw [List.length_drop]
    omega
  rw [b64Enc_drop, List.drop_eq_getElem_cons h, b64Enc_cons_take_four, hlen, List.getElem?_drop, List.getElem?_drop]

/-- Settles O11, from the length of B64Enc's output. -/
theorem b64EncLengthLaw : Obligations.B64EncLengthLaw := by
  intro b
  exact ⟨b64Enc_length b, by rw [b64Enc_length, Nat.mul_mod_right]⟩

/-- Settles O12: the input from group `g` on starts with a full group, or is one of the two partial groups. -/
theorem b64EncGroupsInSequence : Obligations.B64EncGroupsInSequence := by
  intro inp g b0 b1 b2
  rw [b64Enc_drop]
  refine ⟨fun h0 h1 h2 => ?_, fun h0 h1 h2 => ?_, fun h0 h1 => ?_⟩
  · rw [drop_of_getElem?_eq_some h0, drop_of_getElem?_eq_some h1, drop_of_getElem?_eq_some h2]
    rfl
  · rw [drop_of_getElem?_eq_some h0, drop_of_getElem?_eq_some h1, drop_of_getElem?_eq_none h2]
    rfl
  · rw [drop_of_getElem?_eq_some h0, drop_of_getElem?_eq_none h1]
    rfl

/-! ## The alphabet -/

/-- Every symbol of U64E for a legal count is a code of LUT64 or the padding code; only the last two can be padding (R121). -/
theorem mem_u64eSymbols {b0 b1 b2 c : Byte} {k : BitVec 2} (hk : k ≠ 0) (h : c ∈ u64eSymbols b0 b1 b2 k) :
    (∃ v : BitVec 6, c = lut64 v) ∨ c = padCode := by
  simp only [u64eSymbols, u64e, if_neg hk, List.mem_cons, List.not_mem_nil, or_false] at h
  rcases h with h0 | h1 | h2 | h3
  · exact .inl ⟨_, h0⟩
  · exact .inl ⟨_, h1⟩
  · split at h2
    · exact .inl ⟨_, h2⟩
    · exact .inr h2
  · split at h3
    · exact .inl ⟨_, h3⟩
    · exact .inr h3

/-- Settles O14, by the groups of the input: each is encoded by U64E with a count of 1, 2 or 3. -/
theorem b64EncAlphabetLaw : Obligations.B64EncAlphabetLaw := by
  intro b c hc
  induction b using b64Enc.induct with
  | case1 => exact absurd hc List.not_mem_nil
  | case2 b0 => exact mem_u64eSymbols (by decide) hc
  | case3 b0 b1 => exact mem_u64eSymbols (by decide) hc
  | case4 b0 b1 b2 rest ih =>
    rcases List.mem_append.1 hc with hgroup | hrest
    · exact mem_u64eSymbols (by decide) hgroup
    · exact ih hrest

/-! ## The commit -/

/-- OUT_LEN's 18 bits hold the length of every output that fits OBUF (R10, R28). -/
theorem commitOk_outLen_toNat {out : List Byte} {s : State} (hfits : out.length ≤ s.cfg.obufSize) :
    (commitOk out s).outLen.toNat = out.length := by
  obtain ⟨-, -, hmax⟩ := obufSize_bounds s.cfg
  rw [commitOk_outLen, BitVec.toNat_ofNat, Nat.mod_eq_of_lt (by omega)]

/-- Where four symbols of U64E stand in the output, the commit puts them into the four OBUF cells at the same positions. -/
theorem obufByte_commitOk_of_u64eSymbols {out : List Byte} {a : Nat} {b0 b1 b2 : Byte} {k : BitVec 2} (s : State)
    (h : (out.drop a).take 4 = u64eSymbols b0 b1 b2 k) :
    (obufByte (commitOk out s) a, obufByte (commitOk out s) (a + 1), obufByte (commitOk out s) (a + 2),
      obufByte (commitOk out s) (a + 3)) = u64e b0 b1 b2 k := by
  have hcell : ∀ j < 4, out[a + j]? = (u64eSymbols b0 b1 b2 k)[j]? := fun j hj => by
    rw [← h, List.getElem?_take_of_lt hj, List.getElem?_drop]
  have h0 : out[a]? = (u64eSymbols b0 b1 b2 k)[0]? := hcell 0 (by decide)
  simp only [obufByte_commitOk, h0, hcell 1 (by decide), hcell 2 (by decide), hcell 3 (by decide)]
  rfl

/-- A byte of the input, past its end read as zero. -/
theorem input_getElem?_getD (s : State) (i : Nat) :
    (input s)[i]?.getD 0x00#8 = if i < s.en.toNat then ibufByte s i else 0x00#8 := by
  rw [input, ibufTake_getElem?]
  split <;> rfl

theorem input_getElem {s : State} {i : Nat} (h : i < (input s).length) : (input s)[i] = ibufByte s i := by
  simp [input, ibufTake]

/-- Settles O24: B64ENC commits B64Enc of its input, which fits OBUF, and each group's cells are those of its symbols. -/
theorem b64encCommitsItsEncoding : Obligations.B64encCommitsItsEncoding := by
  intro s hen
  have hfits : (b64Enc (input s)).length ≤ s.cfg.obufSize :=
    transform_length_le_obufSize (i := .b64enc) ((input_length s).trans_le hen) rfl
  refine ⟨commitOk (b64Enc (input s)) s, exec_eq .b64enc s, statusWord_commitOk _ s, ?_, fun g hg => ?_⟩
  · rw [commitOk_outLen_toNat hfits, b64Enc_length, input_length]
  · have hgroup := b64Enc_group (inp := input s) (g := g) (by rwa [input_length])
    rw [input_getElem, input_getElem?_getD, input_getElem?_getD, input_length] at hgroup
    have hk2 : 2 ≤ min 3 (s.en.toNat - 3 * g) ↔ 3 * g + 1 < s.en.toNat := by omega
    have hk3 : min 3 (s.en.toNat - 3 * g) = 3 ↔ 3 * g + 2 < s.en.toNat := by omega
    simp only [hk2, hk3]
    exact obufByte_commitOk_of_u64eSymbols s hgroup

end Sys2Proof.Machine
end

section
/-! SUPPORT. Base64 decoding: which groups U64D ends the text with, what B64Dec answers on every text, that it inverts B64Enc,
and what B64DEC commits (42_base64_decode.md R131 to R143). -/

namespace Sys2Proof.Machine

/-! ## One group: its count and whether it terminates (R131, R134) -/

theorem u64d_err_iff (s0 s1 s2 s3 : Byte) :
    (u64d s0 s1 s2 s3).err = true
      ↔ inv64 s0 = .invalid ∨ inv64 s1 = .invalid ∨ inv64 s2 = .invalid ∨ inv64 s3 = .invalid := by
  refine ⟨fun herr => ?_, u64d_invalid⟩
  by_contra hvalid
  obtain ⟨h0, h1, h2, h3⟩ := by simpa only [not_or] using hvalid
  rw [u64d_valid h0 h1 h2 h3] at herr
  cases herr

theorem u64d_err_eq_false {s0 s1 s2 s3 : Byte} (h : ∀ c ∈ [s0, s1, s2, s3], inv64 c ≠ .invalid) :
    (u64d s0 s1 s2 s3).err = false := by
  simp only [List.forall_mem_cons] at h
  obtain ⟨h0, h1, h2, h3, -⟩ := h
  rw [u64d_valid h0 h1 h2 h3]

/-- The third symbol, then the fourth, decides (R134). -/
theorem u64d_count_cases {s0 s1 s2 s3 : Byte} (h : (u64d s0 s1 s2 s3).err = false) :
    (s2 = padCode ∧ (u64d s0 s1 s2 s3).k = 1 ∧ (u64d s0 s1 s2 s3).fin = true)
      ∨ (s2 ≠ padCode ∧ s3 = padCode ∧ (u64d s0 s1 s2 s3).k = 2 ∧ (u64d s0 s1 s2 s3).fin = true)
      ∨ (s2 ≠ padCode ∧ s3 ≠ padCode ∧ (u64d s0 s1 s2 s3).k = 3 ∧ (u64d s0 s1 s2 s3).fin = false) := by
  rw [← Bool.not_eq_true, u64d_err_iff] at h
  obtain ⟨h0, h1, h2, h3⟩ := by simpa only [not_or] using h
  rw [u64d_valid h0 h1 h2 h3]
  by_cases hs2 : s2 = padCode
  · exact .inl (by simp [hs2])
  · by_cases hs3 : s3 = padCode
    · exact .inr (.inl (by simp [hs2, hs3]))
    · exact .inr (.inr (by simp [hs2, hs3]))

/-- A group that does not terminate gives all its three bytes (R134). -/
theorem u64d_k_of_not_fin {s0 s1 s2 s3 : Byte} (herr : (u64d s0 s1 s2 s3).err = false)
    (hfin : (u64d s0 s1 s2 s3).fin = false) : (u64d s0 s1 s2 s3).k = 3 := by
  rcases u64d_count_cases herr with ⟨-, -, hfin'⟩ | ⟨-, -, -, hfin'⟩ | ⟨-, -, hk, -⟩
  · cases hfin.symm.trans hfin'
  · cases hfin.symm.trans hfin'
  · exact hk

theorem u64dBytes_length (o : U64dOut) : (u64dBytes o).length = o.k.toNat := by
  have hk := o.k.isLt
  rw [u64dBytes, List.length_take, List.length_cons, List.length_cons, List.length_singleton]
  omega

/-! ## The group loop, one group at a time (R134, R138) -/

theorem b64DecGroups_of_fin {s0 s1 s2 s3 : Byte} (rest : List Byte) (h : (u64d s0 s1 s2 s3).fin = true) :
    b64DecGroups (s0 :: s1 :: s2 :: s3 :: rest) = u64dBytes (u64d s0 s1 s2 s3) := by simp [b64DecGroups, h]

theorem b64DecGroups_of_not_fin {s0 s1 s2 s3 : Byte} (rest : List Byte) (h : (u64d s0 s1 s2 s3).fin = false) :
    b64DecGroups (s0 :: s1 :: s2 :: s3 :: rest) = u64dBytes (u64d s0 s1 s2 s3) ++ b64DecGroups rest := by
  simp [b64DecGroups, h]

/-- Settles O9: the count says which of the three bytes are emitted, and fin whether the loop takes the rest. -/
theorem u64dTerminationFollowsThirdThenFourthSymbol : Obligations.U64dTerminationFollowsThirdThenFourthSymbol := by
  intro s0 s1 s2 s3
  refine ⟨u64d_err_iff s0 s1 s2 s3, fun hvalid rest => ?_⟩
  rcases u64d_count_cases hvalid with ⟨hs2, hk, hfin⟩ | ⟨hs2, hs3, hk, hfin⟩ | ⟨hs2, hs3, hk, hfin⟩
  · refine ⟨fun _ => ⟨hk, hfin, ?_⟩, fun h => absurd hs2 h, fun h => absurd hs2 h⟩
    rw [b64DecGroups_of_fin rest hfin, u64dBytes, hk]
    rfl
  · refine ⟨fun h => absurd h hs2, fun _ _ => ⟨hk, hfin, ?_⟩, fun _ h => absurd hs3 h⟩
    rw [b64DecGroups_of_fin rest hfin, u64dBytes, hk]
    rfl
  · refine ⟨fun h => absurd h hs2, fun _ h => absurd h hs3, fun _ _ => ⟨hk, hfin, ?_⟩⟩
    rw [b64DecGroups_of_not_fin rest hfin, u64dBytes, hk]
    rfl

/-! ## The two tests before the loop (R139, R140) -/

theorem b64Dec_of_length_mod_ne {inp : List Byte} (hlen : inp.length % 4 ≠ 0) : b64Dec inp = .err .invalidLength :=
  if_pos hlen

theorem b64Dec_of_invalid {inp : List Byte} (hlen : inp.length % 4 = 0) (h : ∃ c ∈ inp, inv64 c = .invalid) :
    b64Dec inp = .err .invalidCharacter := by
  have htest : inp.any (fun c => inv64 c == .invalid) = true := by simpa using h
  rw [b64Dec, if_neg (not_not.2 hlen), if_pos htest]

theorem b64Dec_of_valid {inp : List Byte} (hlen : inp.length % 4 = 0) (h : ∀ c ∈ inp, inv64 c ≠ .invalid) :
    b64Dec inp = .ok (b64DecGroups inp) := by
  have htest : ¬inp.any (fun c => inv64 c == .invalid) = true := by simpa using h
  rw [b64Dec, if_neg (not_not.2 hlen), if_neg htest]

/-- B64Dec answers in one of three ways, by the length and then by the symbols (R138). -/
theorem b64Dec_cases (inp : List Byte) :
    (inp.length % 4 ≠ 0 ∧ b64Dec inp = .err .invalidLength)
      ∨ (inp.length % 4 = 0 ∧ (∃ c ∈ inp, inv64 c = .invalid) ∧ b64Dec inp = .err .invalidCharacter)
      ∨ (inp.length % 4 = 0 ∧ (∀ c ∈ inp, inv64 c ≠ .invalid) ∧ b64Dec inp = .ok (b64DecGroups inp)) := by
  by_cases hlen : inp.length % 4 = 0
  · by_cases hbad : ∃ c ∈ inp, inv64 c = .invalid
    · exact .inr (.inl ⟨hlen, hbad, b64Dec_of_invalid hlen hbad⟩)
    · have hvalid : ∀ c ∈ inp, inv64 c ≠ .invalid := fun c hc he => hbad ⟨c, hc, he⟩
      exact .inr (.inr ⟨hlen, hvalid, b64Dec_of_valid hlen hvalid⟩)
  · exact .inl ⟨hlen, b64Dec_of_length_mod_ne hlen⟩

theorem b64Dec_eq_ok_iff (inp out : List Byte) :
    b64Dec inp = .ok out ↔ inp.length % 4 = 0 ∧ (∀ c ∈ inp, inv64 c ≠ .invalid) ∧ out = b64DecGroups inp := by
  refine ⟨fun hok => ?_, fun ⟨hlen, hvalid, hout⟩ => hout ▸ b64Dec_of_valid hlen hvalid⟩
  rcases b64Dec_cases inp with ⟨-, herr⟩ | ⟨-, -, herr⟩ | ⟨hlen, hvalid, -⟩
  · cases herr.symm.trans hok
  · cases herr.symm.trans hok
  · exact ⟨hlen, hvalid, b64Dec_ok hok⟩

/-- Settles O15: the three answers of B64Dec and their three conditions each exclude one another. -/
theorem b64DecErrorsExactly : Obligations.B64DecErrorsExactly := by
  intro inp
  rcases b64Dec_cases inp with ⟨hlen, h⟩ | ⟨hlen, hbad, h⟩ | ⟨hlen, hvalid, h⟩
  · simp [h, hlen]
  · simpa [h, hlen] using hbad
  · simpa [h, hlen] using hvalid

/-! ## Nothing after a terminating group counts (R141) -/

theorem eq_nil_of_no_group {l : List Byte} (hlen : l.length % 4 = 0)
    (hshort : ∀ s0 s1 s2 s3 rest, l = s0 :: s1 :: s2 :: s3 :: rest → False) : l = [] := by
  match l with
  | [] => rfl
  | [_] | [_, _] | [_, _, _] => cases hlen
  | s0 :: s1 :: s2 :: s3 :: rest => exact (hshort s0 s1 s2 s3 rest rfl).elim

theorem b64DecGroups_append_of_fin {pre : List Byte} {s0 s1 s2 s3 : Byte} (post : List Byte)
    (hlen : pre.length % 4 = 0) (hfin : (u64d s0 s1 s2 s3).fin = true) :
    b64DecGroups (pre ++ [s0, s1, s2, s3] ++ post) = b64DecGroups (pre ++ [s0, s1, s2, s3]) := by
  induction pre using b64DecGroups.induct with
  | case1 p0 p1 p2 p3 rest ih =>
    have hrest : rest.length % 4 = 0 := by
      simp only [List.length_cons] at hlen
      omega
    simp only [List.cons_append, b64DecGroups, ih hrest]
  | case2 pre hshort =>
    rw [eq_nil_of_no_group hlen hshort]
    exact (b64DecGroups_of_fin post hfin).trans (b64DecGroups_of_fin [] hfin).symm

/-- Settles O16: the two tests hold of the longer text, and its loop ends at the same group. -/
theorem b64DecStopsAtATerminatingGroup : Obligations.B64DecStopsAtATerminatingGroup := by
  intro pre post out s0 s1 s2 s3 hpre hpad hok hpost hpostValid
  obtain ⟨hlen, hvalid, rfl⟩ := (b64Dec_eq_ok_iff _ _).1 hok
  have hgroup : (u64d s0 s1 s2 s3).err = false :=
    u64d_err_eq_false fun c hc => hvalid c (List.mem_append_right pre hc)
  have hfin : (u64d s0 s1 s2 s3).fin = true := by
    rcases u64d_count_cases hgroup with ⟨-, -, hfin⟩ | ⟨-, -, -, hfin⟩ | ⟨hs2, hs3, -⟩
    · exact hfin
    · exact hfin
    · exact (hpad.elim hs2 hs3).elim
  refine (b64Dec_eq_ok_iff _ _).2 ⟨?_, ?_, (b64DecGroups_append_of_fin post hpre hfin).symm⟩
  · rw [List.length_append]
    omega
  · exact List.forall_mem_append.2 ⟨hvalid, hpostValid⟩

/-! ## U64D on the symbols of U64E: INV64 inverts LUT64, and no code of LUT64 is `=` -/

theorem inv64_lut64 (q : BitVec 6) : inv64 (lut64 q) = .val q := by
  revert q
  decide

theorem inv64_lut64_ne_invalid (q : BitVec 6) : inv64 (lut64 q) ≠ .invalid := by simp [inv64_lut64]

theorem inv64_padCode_ne_invalid : inv64 padCode ≠ .invalid := by decide

theorem lut64_ne_padCode (q : BitVec 6) : lut64 q ≠ padCode := by
  revert q
  decide

theorem val64_lut64 (q : BitVec 6) : val64 (lut64 q) = q := by rw [val64, inv64_lut64]

theorem val64_padCode : val64 padCode = 0 := by decide

theorem u64d_lut64 (q0 q1 q2 q3 : BitVec 6) :
    u64d (lut64 q0) (lut64 q1) (lut64 q2) (lut64 q3) =
      { err := false, b0 := q0 ++ q1.extractLsb' 4 2, b1 := q1.extractLsb' 0 4 ++ q2.extractLsb' 2 4
        b2 := q2.extractLsb' 0 2 ++ q3, k := 3, fin := false } := by
  rw [u64d_valid (inv64_lut64_ne_invalid q0) (inv64_lut64_ne_invalid q1) (inv64_lut64_ne_invalid q2)
    (inv64_lut64_ne_invalid q3)]
  simp only [val64_lut64, lut64_ne_padCode, if_false]

theorem u64d_lut64_pad (q0 q1 q2 : BitVec 6) :
    u64d (lut64 q0) (lut64 q1) (lut64 q2) padCode =
      { err := false, b0 := q0 ++ q1.extractLsb' 4 2, b1 := q1.extractLsb' 0 4 ++ q2.extractLsb' 2 4
        b2 := q2.extractLsb' 0 2 ++ 0#6, k := 2, fin := true } := by
  rw [u64d_valid (inv64_lut64_ne_invalid q0) (inv64_lut64_ne_invalid q1) (inv64_lut64_ne_invalid q2)
    inv64_padCode_ne_invalid]
  simp only [val64_lut64, val64_padCode, lut64_ne_padCode, if_false, if_true]
  rfl

theorem u64d_lut64_pad_pad (q0 q1 : BitVec 6) :
    u64d (lut64 q0) (lut64 q1) padCode padCode =
      { err := false, b0 := q0 ++ q1.extractLsb' 4 2, b1 := q1.extractLsb' 0 4 ++ 0#4, b2 := 0#8, k := 1, fin := true } := by
  rw [u64d_valid (inv64_lut64_ne_invalid q0) (inv64_lut64_ne_invalid q1) inv64_padCode_ne_invalid
    inv64_padCode_ne_invalid]
  simp only [val64_lut64, val64_padCode, if_true]
  rfl

/-! ## The bytes of a group put together again from its sextets (R83, R132) -/

theorem byte0_of_sextets (b0 : Byte) (x : BitVec 4) :
    b0.extractLsb' 2 6 ++ (b0.extractLsb' 0 2 ++ x).extractLsb' 4 2 = b0 := by
  rw [BitVec.extractLsb'_append_eq_left]
  exact (BitVec.extractLsb'_append_extractLsb'_eq_extractLsb' rfl).trans BitVec.extractLsb'_eq_self

theorem byte1_of_sextets (x z : BitVec 2) (b1 : Byte) :
    (x ++ b1.extractLsb' 4 4).extractLsb' 0 4 ++ (b1.extractLsb' 0 4 ++ z).extractLsb' 2 4 = b1 := by
  rw [BitVec.extractLsb'_append_eq_left, BitVec.extractLsb'_append_eq_right]
  exact (BitVec.extractLsb'_append_extractLsb'_eq_extractLsb' rfl).trans BitVec.extractLsb'_eq_self

theorem byte2_of_sextets (x : BitVec 4) (b2 : Byte) :
    (x ++ b2.extractLsb' 6 2).extractLsb' 0 2 ++ b2.extractLsb' 0 6 = b2 := by
  rw [BitVec.extractLsb'_append_eq_right]
  exact (BitVec.extractLsb'_append_extractLsb'_eq_extractLsb' rfl).trans BitVec.extractLsb'_eq_self

/-! ## The round trip (R143) -/

theorem b64DecGroups_u64eSymbols_three (b0 b1 b2 : Byte) (rest : List Byte) :
    b64DecGroups (u64eSymbols b0 b1 b2 3 ++ rest) = b0 :: b1 :: b2 :: b64DecGroups rest := by
  rw [u64eSymbols, u64e_three]
  refine (b64DecGroups_of_not_fin rest (by rw [u64d_lut64])).trans ?_
  rw [u64d_lut64, byte0_of_sextets, byte1_of_sextets, byte2_of_sextets]
  rfl

theorem b64DecGroups_u64eSymbols_two (b0 b1 b2 : Byte) : b64DecGroups (u64eSymbols b0 b1 b2 2) = [b0, b1] := by
  rw [u64eSymbols, u64e_two]
  refine (b64DecGroups_of_fin [] (by rw [u64d_lut64_pad])).trans ?_
  rw [u64d_lut64_pad, byte0_of_sextets, byte1_of_sextets]
  rfl

theorem b64DecGroups_u64eSymbols_one (b0 b1 b2 : Byte) : b64DecGroups (u64eSymbols b0 b1 b2 1) = [b0] := by
  rw [u64eSymbols, u64e_one]
  refine (b64DecGroups_of_fin [] (by rw [u64d_lut64_pad_pad])).trans ?_
  rw [u64d_lut64_pad_pad, byte0_of_sextets]
  rfl

theorem b64DecGroups_b64Enc (b : List Byte) : b64DecGroups (b64Enc b) = b := by
  induction b using b64Enc.induct with
  | case1 => rfl
  | case2 b0 => exact b64DecGroups_u64eSymbols_one b0 0x00#8 0x00#8
  | case3 b0 b1 => exact b64DecGroups_u64eSymbols_two b0 b1 0x00#8
  | case4 b0 b1 b2 rest ih => rw [b64Enc, b64DecGroups_u64eSymbols_three, ih]

/-- By the alphabet law (R127). -/
theorem b64Enc_valid {b : List Byte} {c : Byte} (hc : c ∈ b64Enc b) : inv64 c ≠ .invalid := by
  rcases b64EncAlphabetLaw b c hc with ⟨v, rfl⟩ | rfl
  · exact inv64_lut64_ne_invalid v
  · exact inv64_padCode_ne_invalid

/-- Settles O18: an encoded text passes both tests, and the group loop inverts the encoding group by group. -/
theorem base64RoundTrip : Obligations.Base64RoundTrip := fun b =>
  (b64Dec_eq_ok_iff _ _).2
    ⟨(b64EncLengthLaw b).2, fun _ => b64Enc_valid, (b64DecGroups_b64Enc b).symm⟩

/-! ## Where the bytes of each group stand in the output (R138) -/

/-- U64D of the four symbols of group `g` of a text, those past its end read as 0. -/
def groupAt (inp : List Byte) (g : Nat) : U64dOut :=
  u64d (inp[4 * g]?.getD 0x00#8) (inp[4 * g + 1]?.getD 0x00#8) (inp[4 * g + 2]?.getD 0x00#8)
    (inp[4 * g + 3]?.getD 0x00#8)

theorem groupAt_eq {inp : List Byte} {g : Nat} (hg : 4 * g + 3 < inp.length) :
    groupAt inp g = u64d inp[4 * g] inp[4 * g + 1] inp[4 * g + 2] inp[4 * g + 3] := by
  have h (i : Nat) (hi : i < inp.length) : inp[i]?.getD 0x00#8 = inp[i] := by simp [hi]
  rw [groupAt, h, h, h, h]

theorem drop_group {inp : List Byte} {g : Nat} (hg : 4 * g + 3 < inp.length) :
    inp.drop (4 * g) = [inp[4 * g], inp[4 * g + 1], inp[4 * g + 2], inp[4 * g + 3]] ++ inp.drop (4 * (g + 1)) := by
  rw [List.drop_eq_getElem_cons, List.drop_eq_getElem_cons, List.drop_eq_getElem_cons, List.drop_eq_getElem_cons]
  rfl

/-- The loop over the text from group `g` on takes that group first. -/
theorem b64DecGroups_drop {inp : List Byte} {g : Nat} (hg : 4 * g + 3 < inp.length) :
    b64DecGroups (inp.drop (4 * g)) =
      u64dBytes (groupAt inp g) ++ if (groupAt inp g).fin then [] else b64DecGroups (inp.drop (4 * (g + 1))) := by
  rw [drop_group hg, groupAt_eq hg]
  rfl

theorem groupAt_err {inp : List Byte} {g : Nat} (hvalid : ∀ c ∈ inp, inv64 c ≠ .invalid)
    (hg : 4 * g + 3 < inp.length) : (groupAt inp g).err = false := by
  rw [groupAt_eq hg]
  refine u64d_err_eq_false fun c hc => hvalid c (List.mem_of_mem_drop (i := 4 * g) ?_)
  rw [drop_group hg]
  exact List.mem_append_left _ hc

/-- As long as no group terminates, each gives three bytes: what the loop emits from group `g` on stands at output
position 3g. -/
theorem b64DecGroups_split {inp : List Byte} {g : Nat} (hvalid : ∀ c ∈ inp, inv64 c ≠ .invalid)
    (hg : 4 * g ≤ inp.length) (hcont : ∀ h < g, (groupAt inp h).fin = false) :
    ∃ pre : List Byte, pre.length = 3 * g ∧ b64DecGroups inp = pre ++ b64DecGroups (inp.drop (4 * g)) := by
  induction g with
  | zero => exact ⟨[], rfl, rfl⟩
  | succ g ih =>
    obtain ⟨pre, hlen, hpre⟩ := ih (by omega) fun h hh => hcont h (by omega)
    have hfin : (groupAt inp g).fin = false := hcont g (Nat.lt_succ_self g)
    have hk : (groupAt inp g).k = 3 := u64d_k_of_not_fin (groupAt_err hvalid (by omega)) hfin
    refine ⟨pre ++ u64dBytes (groupAt inp g), ?_, ?_⟩
    · rw [List.length_append, u64dBytes_length, hk, hlen]
      rfl
    · rw [hpre, b64DecGroups_drop (by omega), hfin, List.append_assoc]
      rfl

/-- Without a terminating group every group gives three bytes (R142). -/
theorem b64DecGroups_length_of_not_fin {inp : List Byte} (hvalid : ∀ c ∈ inp, inv64 c ≠ .invalid)
    (hlen : inp.length % 4 = 0) (hcont : ∀ g < inp.length / 4, (groupAt inp g).fin = false) :
    (b64DecGroups inp).length = 3 * (inp.length / 4) := by
  obtain ⟨pre, hpre, hsplit⟩ := b64DecGroups_split hvalid (by omega) hcont
  have hrest : inp.drop (4 * (inp.length / 4)) = [] := List.drop_of_length_le (by omega)
  rw [hsplit, hrest, ← hpre]
  exact congrArg List.length (List.append_nil pre)

/-- The first terminating group is the last that gives bytes (R134, R142). -/
theorem b64DecGroups_length_of_fin {inp : List Byte} {g : Nat} (hvalid : ∀ c ∈ inp, inv64 c ≠ .invalid)
    (hg : 4 * g + 3 < inp.length) (hcont : ∀ h < g, (groupAt inp h).fin = false) (hfin : (groupAt inp g).fin = true) :
    (b64DecGroups inp).length = 3 * g + (groupAt inp g).k.toNat := by
  obtain ⟨pre, hpre, hsplit⟩ := b64DecGroups_split hvalid (by omega) hcont
  rw [hsplit, b64DecGroups_drop hg, if_pos hfin, List.append_nil, List.length_append, hpre, u64dBytes_length]

/-- The bytes of a group no earlier group ends the loop before stand from output position 3g on (R138). -/
theorem b64DecGroups_getElem? {inp : List Byte} {g j : Nat} (hvalid : ∀ c ∈ inp, inv64 c ≠ .invalid)
    (hg : 4 * g + 3 < inp.length) (hcont : ∀ h < g, (groupAt inp h).fin = false) (hj : j < (groupAt inp g).k.toNat) :
    (b64DecGroups inp)[3 * g + j]? = [(groupAt inp g).b0, (groupAt inp g).b1, (groupAt inp g).b2][j]? := by
  obtain ⟨pre, hpre, hsplit⟩ := b64DecGroups_split hvalid (by omega) hcont
  have hbytes : j < (u64dBytes (groupAt inp g)).length := by rwa [u64dBytes_length]
  rw [hsplit, b64DecGroups_drop hg, ← hpre, List.getElem?_append_right (Nat.le_add_right _ _), Nat.add_sub_cancel_left,
    List.getElem?_append_left hbytes, u64dBytes, List.getElem?_take_of_lt hj]

/-! ## The commit -/

theorem mem_input_iff (s : State) (c : Byte) : c ∈ input s ↔ ∃ i < s.en.toNat, ibufByte s i = c := by
  simp [input, ibufTake]

theorem groupAt_input {s : State} {g : Nat} (hg : g < (input s).length / 4) :
    groupAt (input s) g =
      u64d (ibufByte s (4 * g)) (ibufByte s (4 * g + 1)) (ibufByte s (4 * g + 2)) (ibufByte s (4 * g + 3)) := by
  rw [groupAt_eq (by omega)]
  simp only [input_getElem]

/-- Where the output agrees with a byte of `l`, the commit puts that byte into the OBUF cell. -/
theorem some_obufByte_commitOk {out l : List Byte} {i j : Nat} (s : State) (h : out[i]? = l[j]?) (hj : j < l.length) :
    some (obufByte (commitOk out s) i) = l[j]? := by
  rw [obufByte_commitOk, h, List.getElem?_eq_getElem hj, Option.getD_some]

/-- Settles O25: B64DEC commits B64Dec of its input, and the groups of a valid input stand in OBUF as in the loop's output, up
to the first terminating one. -/
theorem b64decCommitsBytesOrError : Obligations.B64decCommitsBytesOrError := by
  intro s hen group
  refine ⟨commit (b64Dec (input s)) s, exec_eq .b64dec s, fun hlen => ?_, fun hlen hbad => ?_, fun hlen hsym => ?_⟩
  · rw [b64Dec_of_length_mod_ne (by rwa [input_length])]
    exact ⟨statusWord_commitErr _ s, rfl⟩
  · obtain ⟨i, hi, hinv⟩ := hbad
    rw [b64Dec_of_invalid (by rwa [input_length]) ⟨_, (mem_input_iff s _).2 ⟨i, hi, rfl⟩, hinv⟩]
    exact ⟨statusWord_commitErr _ s, rfl⟩
  · rw [← input_length s] at hen hlen
    have hvalid : ∀ c ∈ input s, inv64 c ≠ .invalid := fun c hc => by
      obtain ⟨i, hi, rfl⟩ := (mem_input_iff s c).1 hc
      exact hsym i hi
    have hok := b64Dec_of_valid hlen hvalid
    have houtLen := commitOk_outLen_toNat (transform_length_le_obufSize (i := .b64dec) hen hok)
    have hgroup : ∀ g < (input s).length / 4, group g = groupAt (input s) g := fun g hg => (groupAt_input hg).symm
    rw [hok, ← input_length s]
    refine ⟨statusWord_commitOk _ s, fun hcont => ?_, fun g hg hcont => ?_⟩
    · refine houtLen.trans (b64DecGroups_length_of_not_fin hvalid hlen fun g hg => ?_)
      rw [← hgroup g hg]
      exact hcont g hg
    · have hcont' : ∀ h < g, (groupAt (input s) h).fin = false := fun h hh => by
        rw [← hgroup h (hh.trans hg)]
        exact hcont h hh
      have hfits : 4 * g + 3 < (input s).length := by omega
      rw [hgroup g hg]
      refine ⟨fun hfin => houtLen.trans (b64DecGroups_length_of_fin hvalid hfits hcont' hfin), fun j hj => ?_⟩
      exact some_obufByte_commitOk s (b64DecGroups_getElem? hvalid hfits hcont' hj)
        (hj.trans_le (Nat.le_of_lt_succ (groupAt (input s) g).k.isLt))

end Sys2Proof.Machine
end

section
/-! SUPPORT. Base16 encoding: which codes the symbols of B16Enc are, where those of each byte stand in its output, and what
B16ENC commits (43_base16_encode.md R150 to R155). -/

namespace Sys2Proof.Machine

/-! ## The alphabet (R154) -/

/-- The two ranges of R88, tested on all 16 nibbles. -/
theorem lut16_range (v : BitVec 4) :
    (0x30 ≤ (lut16 v).toNat ∧ (lut16 v).toNat ≤ 0x39) ∨ (0x41 ≤ (lut16 v).toNat ∧ (lut16 v).toNat ≤ 0x46) := by
  revert v
  decide

theorem lut16_ne_padCode (v : BitVec 4) : lut16 v ≠ padCode := by
  intro h
  have hrange := lut16_range v
  rw [h] at hrange
  exact absurd hrange (by decide)

theorem mem_b16Enc {inp : List Byte} {c : Byte} (hc : c ∈ b16Enc inp) : ∃ v, c = lut16 v := by
  induction inp with
  | nil => exact absurd hc List.not_mem_nil
  | cons b rest ih =>
    rw [b16Enc, List.mem_cons, List.mem_cons] at hc
    rcases hc with hhigh | hlow | hrest
    · exact ⟨b.extractLsb' 4 4, hhigh⟩
    · exact ⟨b.extractLsb' 0 4, hlow⟩
    · exact ih hrest

/-- Settles O19: each byte gives two symbols, both codes of LUT16. -/
theorem b16EncLengthAndAlphabet : Obligations.B16EncLengthAndAlphabet := by
  refine fun b => ⟨b16Enc_length b, fun c hc => ?_⟩
  obtain ⟨v, rfl⟩ := mem_b16Enc hc
  exact ⟨⟨v, rfl⟩, lut16_range v, lut16_ne_padCode v⟩

/-! ## Where the symbols of each byte stand (R152) -/

/-- One input byte is two output symbols, so byte `i`'s occupy the output positions 2i and 2i+1. -/
theorem b16Enc_getElem?_pair {inp : List Byte} {i : Nat} {b : Byte} (h : inp[i]? = some b) :
    (b16Enc inp)[2 * i]? = some (u16e b).1 ∧ (b16Enc inp)[2 * i + 1]? = some (u16e b).2 := by
  induction inp generalizing i with
  | nil => cases h
  | cons b' rest ih =>
    cases i with
    | zero =>
      cases h
      exact ⟨rfl, rfl⟩
    | succ i => exact ih h

/-! ## The commit -/

/-- The commit puts the two symbols of input byte `i` into the OBUF cells 2i and 2i+1. -/
theorem obufByte_commitOk_b16Enc {s : State} {i : Nat} (hi : i < s.en.toNat) :
    obufByte (commitOk (b16Enc (input s)) s) (2 * i) = (u16e (ibufByte s i)).1
      ∧ obufByte (commitOk (b16Enc (input s)) s) (2 * i + 1) = (u16e (ibufByte s i)).2 := by
  have hbyte : (input s)[i]? = some (ibufByte s i) := (ibufTake_getElem? s _ i).trans (if_pos hi)
  obtain ⟨hhigh, hlow⟩ := b16Enc_getElem?_pair hbyte
  rw [obufByte_commitOk, obufByte_commitOk, hhigh, hlow]
  exact ⟨rfl, rfl⟩

/-- Settles O26: B16ENC commits B16Enc of its input, which fits OBUF, and each byte's cells are those of its two symbols. -/
theorem b16encCommitsItsEncoding : Obligations.B16encCommitsItsEncoding := by
  intro s hen
  have hfits : (b16Enc (input s)).length ≤ s.cfg.obufSize :=
    transform_length_le_obufSize (i := .b16enc) ((input_length s).trans_le hen) rfl
  refine ⟨commitOk (b16Enc (input s)) s, exec_eq .b16enc s, statusWord_commitOk _ s, ?_, fun i hi => ?_⟩
  · rw [commitOk_outLen_toNat hfits, b16Enc_length, input_length]
  · exact obufByte_commitOk_b16Enc hi

end Sys2Proof.Machine
end

section
/-! SUPPORT. Base16 decoding: what B16Dec answers on every text, that it inverts B16Enc, and what B16DEC commits
(44_base16_decode.md R160 to R167). -/

namespace Sys2Proof.Machine

/-! ## The two tests before the loop (R164, R165) -/

theorem b16Dec_of_length_mod_ne {inp : List Byte} (hlen : inp.length % 2 ≠ 0) : b16Dec inp = .err .invalidLength :=
  if_pos hlen

theorem b16Dec_of_invalid {inp : List Byte} (hlen : inp.length % 2 = 0) (h : ∃ c ∈ inp, inv16 c = .invalid) :
    b16Dec inp = .err .invalidCharacter := by
  have htest : inp.any (fun c => inv16 c == .invalid) = true := by simpa using h
  rw [b16Dec, if_neg (not_not.2 hlen), if_pos htest]

theorem b16Dec_of_valid {inp : List Byte} (hlen : inp.length % 2 = 0) (h : ∀ c ∈ inp, inv16 c ≠ .invalid) :
    b16Dec inp = .ok (b16DecPairs inp) := by
  have htest : ¬inp.any (fun c => inv16 c == .invalid) = true := by simpa using h
  rw [b16Dec, if_neg (not_not.2 hlen), if_neg htest]

/-- B16Dec answers in one of three ways, by the length and then by the symbols (R163). -/
theorem b16Dec_cases (inp : List Byte) :
    (inp.length % 2 ≠ 0 ∧ b16Dec inp = .err .invalidLength)
      ∨ (inp.length % 2 = 0 ∧ (∃ c ∈ inp, inv16 c = .invalid) ∧ b16Dec inp = .err .invalidCharacter)
      ∨ (inp.length % 2 = 0 ∧ (∀ c ∈ inp, inv16 c ≠ .invalid) ∧ b16Dec inp = .ok (b16DecPairs inp)) := by
  by_cases hlen : inp.length % 2 = 0
  · by_cases hbad : ∃ c ∈ inp, inv16 c = .invalid
    · exact .inr (.inl ⟨hlen, hbad, b16Dec_of_invalid hlen hbad⟩)
    · have hvalid : ∀ c ∈ inp, inv16 c ≠ .invalid := fun c hc he => hbad ⟨c, hc, he⟩
      exact .inr (.inr ⟨hlen, hvalid, b16Dec_of_valid hlen hvalid⟩)
  · exact .inl ⟨hlen, b16Dec_of_length_mod_ne hlen⟩

/-- Settles O20: the three answers of B16Dec and their three conditions each exclude one another. -/
theorem b16DecErrorsExactly : Obligations.B16DecErrorsExactly := by
  intro inp
  rcases b16Dec_cases inp with ⟨hlen, h⟩ | ⟨hlen, hbad, h⟩ | ⟨hlen, hvalid, h⟩
  · simp [h, hlen]
  · simpa [h, hlen] using hbad
  · simpa [h, hlen] using hvalid

/-! ## U16D on the symbols of U16E: INV16 inverts LUT16, and the two nibbles are the byte -/

theorem inv16_lut16 (v : BitVec 4) : inv16 (lut16 v) = .val v := by
  revert v
  decide

theorem u16d_lut16 (hi lo : BitVec 4) : u16d (lut16 hi) (lut16 lo) = { err := false, b := hi ++ lo } :=
  u16d_valid (inv16_lut16 hi) (inv16_lut16 lo)

theorem nibbles_append (b : Byte) : b.extractLsb' 4 4 ++ b.extractLsb' 0 4 = b :=
  (BitVec.extractLsb'_append_extractLsb'_eq_extractLsb' (len₂ := 4) (len₁ := 4) rfl).trans BitVec.extractLsb'_eq_self

theorem b16DecPairs_b16Enc (b : List Byte) : b16DecPairs (b16Enc b) = b := by
  induction b with
  | nil => rfl
  | cons b rest ih => rw [b16Enc, b16DecPairs, ih, u16e, u16d_lut16, nibbles_append]

/-- By the alphabet law (R154). -/
theorem b16Enc_valid {b : List Byte} {c : Byte} (hc : c ∈ b16Enc b) : inv16 c ≠ .invalid := by
  obtain ⟨v, rfl⟩ := mem_b16Enc hc
  simp [inv16_lut16]

/-- Settles O21: an encoded text passes both tests, and the pair loop inverts the encoding byte by byte. -/
theorem base16RoundTrip : Obligations.Base16RoundTrip := by
  intro b
  have heven : (b16Enc b).length % 2 = 0 := by
    rw [b16Enc_length]
    exact Nat.mul_mod_right 2 b.length
  rw [b16Dec_of_valid heven fun _ => b16Enc_valid, b16DecPairs_b16Enc]

/-! ## Where the byte of each pair stands in the output (R163) -/

theorem exists_inv16_eq_val {c : Byte} (h : inv16 c ≠ .invalid) : ∃ v, inv16 c = .val v := by
  cases hc : inv16 c with
  | val v => exact ⟨v, rfl⟩
  | invalid => exact absurd hc h

/-- Two symbols are one output byte, so the symbols at the positions 2g and 2g+1 give the byte at position `g`. -/
theorem b16DecPairs_getElem? {inp : List Byte} {g : Nat} {h l : Byte} (hh : inp[2 * g]? = some h)
    (hl : inp[2 * g + 1]? = some l) : (b16DecPairs inp)[g]? = some (u16d h l).b := by
  induction inp using b16DecPairs.induct generalizing g with
  | case1 h' l' rest ih =>
    cases g with
    | zero =>
      cases hh
      cases hl
      rfl
    | succ g => exact ih hh hl
  | case2 inp hshort =>
    match inp, hshort with
    | [], _ => cases hl
    | [_], _ => cases hl
    | h' :: l' :: rest, hshort => exact (hshort h' l' rest rfl).elim

/-! ## The commit -/

/-- The commit puts the byte of the input symbols 2g and 2g+1 into the OBUF cell `g`. -/
theorem obufByte_commitOk_b16DecPairs {s : State} {g : Nat} (hg : 2 * g + 1 < s.en.toNat) :
    obufByte (commitOk (b16DecPairs (input s)) s) g = (u16d (ibufByte s (2 * g)) (ibufByte s (2 * g + 1))).b := by
  have hsym (i : Nat) (hi : i < s.en.toNat) : (input s)[i]? = some (ibufByte s i) :=
    (ibufTake_getElem? s _ i).trans (if_pos hi)
  rw [obufByte_commitOk, b16DecPairs_getElem? (hsym _ (by omega)) (hsym _ hg), Option.getD_some]

/-- Settles O27: B16DEC commits B16Dec of its input, and each pair of a valid input gives the byte of its two values. -/
theorem b16decCommitsBytesOrError : Obligations.B16decCommitsBytesOrError := by
  intro s hen
  refine ⟨commit (b16Dec (input s)) s, exec_eq .b16dec s, fun hlen => ?_, fun hlen hbad => ?_, fun hlen hsym => ?_⟩
  · rw [b16Dec_of_length_mod_ne (by rwa [input_length])]
    exact ⟨statusWord_commitErr _ s, rfl⟩
  · obtain ⟨i, hi, hinv⟩ := hbad
    rw [b16Dec_of_invalid (by rwa [input_length]) ⟨_, (mem_input_iff s _).2 ⟨i, hi, rfl⟩, hinv⟩]
    exact ⟨statusWord_commitErr _ s, rfl⟩
  · have hvalid : ∀ c ∈ input s, inv16 c ≠ .invalid := fun c hc => by
      obtain ⟨i, hi, rfl⟩ := (mem_input_iff s c).1 hc
      exact hsym i hi
    have hok : b16Dec (input s) = .ok (b16DecPairs (input s)) := b16Dec_of_valid (by rwa [input_length]) hvalid
    have hfits : (b16DecPairs (input s)).length ≤ s.cfg.obufSize :=
      transform_length_le_obufSize (i := .b16dec) ((input_length s).trans_le hen) hok
    rw [hok]
    refine ⟨statusWord_commitOk _ s, ?_, fun g hg => ?_⟩
    · exact (commitOk_outLen_toNat hfits).trans (by rw [b16DecPairs_length, input_length])
    · obtain ⟨hi, hhi⟩ := exists_inv16_eq_val (hsym (2 * g) (by omega))
      obtain ⟨lo, hlo⟩ := exists_inv16_eq_val (hsym (2 * g + 1) (by omega))
      refine ⟨hi, lo, hhi, hlo, (obufByte_commitOk_b16DecPairs (by omega)).trans ?_⟩
      rw [u16d_valid hhi hlo]

end Sys2Proof.Machine
end

section
/-! SUPPORT. What the host reads of a block that has just been reset (70_reset_and_hazards.md R201, R202). -/

namespace Sys2Proof.Machine

/-- An IDLE block without an outcome of a command reads STATUS as 0: each bit field of R26 is 0. -/
theorem statusWord_eq_zero {s : State} (hphase : s.phase = .idle) (hdone : s.done = false) (herr : s.err = 0)
    (hrej : s.rej = false) : statusWord s = 0x00000000#32 := by
  simp [statusWord, State.busy, hphase, hdone, herr, hrej]

/-- Settles O47: the reset state's fields, of which STATUS is composed. -/
theorem resetRegisters : Obligations.ResetRegisters := by
  have hstatus : statusWord State.reset = 0x00000000#32 := statusWord_eq_zero rfl rfl rfl rfl
  exact ⟨rfl, hstatus, rfl, rfl, rfl⟩

end Sys2Proof.Machine
end

section
/-! SUPPORT. The invariant of the machine: that each operation keeps it (10_state.md R26 to R36, 40_command_engine.md R101 to
R107, 70_reset_and_hazards.md R200 to R203), and so every step; and the values STATUS takes under it. -/

namespace Sys2Proof.Machine

/-! ## Conjuncts that hold for want of a premise -/

theorem runLegal_of_idle {s : State} (hp : s.phase = .idle) : RunLegal s :=
  fun hrun => nomatch hp.symm.trans hrun

theorem resetLegal_of_released {s : State} (hr : s.resetPin = false) : ResetLegal s :=
  fun hpin => nomatch hr.symm.trans hpin

/-- Reset holds the engine IDLE, so a running block has its reset released (R200, R202). -/
theorem released_of_running {s : State} (hi : s.Inv) (hp : s.phase = .run) : s.resetPin = false := by
  obtain ⟨-, -, -, -, -, -, hreset⟩ := hi
  by_contra hpin
  obtain ⟨-, -, -, -, -, -, -, -, hidle⟩ := hreset (by simpa using hpin)
  exact nomatch hp.symm.trans hidle

/-- While the engine runs its length fits IBUF and ipos does not exceed it (R21, R103). -/
theorem lengths_of_running {s : State} (hi : s.Inv) (hp : s.phase = .run) :
    s.en.toNat ≤ s.cfg.ibufSize ∧ s.ipos.toNat ≤ s.en.toNat := by
  obtain ⟨-, -, hrun, -⟩ := hi
  obtain ⟨-, -, hen, hle, -⟩ := hrun hp
  exact ⟨hen, hle⟩

/-! ## The life cycle of a command -/

/-- R102. -/
theorem reject_keeps_inv {s : State} (hr : s.resetPin = false) (hi : s.Inv) : (reject s).Inv := by
  obtain ⟨hbuf, -, -, -, hlatch, hdraw, -⟩ := hi
  have hstatus : StatusLegal (reject s) := by simp [StatusLegal]
  have hout : OutputLegal (reject s) := by simp [OutputLegal]
  exact ⟨hbuf, hstatus, runLegal_of_idle rfl, hout, hlatch, hdraw, resetLegal_of_released hr⟩

/-- R103: what is latched is what CMD and IN_LEN hold. -/
theorem accept_keeps_inv {w : Word} {s : State} (hr : s.resetPin = false) (hcmd : s.cmd = w)
    (hw : cmdWordWellFormed w = true) (hl : lengthWellFormed s.cfg s.inLen = true) (hi : s.Inv) : (accept w s).Inv := by
  obtain ⟨hbuf, -, -, -, -, hdraw, -⟩ := hi
  have hstatus : StatusLegal (accept w s) := by simp [StatusLegal]
  have hout : OutputLegal (accept w s) := by simp [OutputLegal]
  have hlatch : LatchLegal (accept w s) := Nat.zero_le 4
  have hrun : RunLegal (accept w s) := fun _ => by
    have hword : s.cmd = 0#30 ++ cmdOp w := by
      rw [hcmd, ← (cmdWordWellFormed_iff w).1 hw, rsvd_append_cmdOp]
    exact ⟨hword, rfl, (lengthWellFormed_iff _ _).1 hl, Nat.zero_le _, rfl⟩
  exact ⟨hbuf, hstatus, hrun, hout, hlatch, hdraw, resetLegal_of_released hr⟩

/-- R101: the word is stored before it is issued. -/
theorem issue_keeps_inv {w : Word} {s : State} (hr : s.resetPin = false) (hp : s.phase = .idle) (hi : s.Inv) :
    (issue w { s with cmd := w }).Inv := by
  obtain ⟨hbuf, hstatus, -, hout, hlatch, hdraw, -⟩ := hi
  have hi' : State.Inv { s with cmd := w } :=
    ⟨hbuf, hstatus, runLegal_of_idle hp, hout, hlatch, hdraw, resetLegal_of_released hr⟩
  rcases issue_cases w { s with cmd := w } with ⟨hw, hl, haccept⟩ | ⟨-, hreject⟩
  · rw [haccept]
    exact accept_keeps_inv hr rfl hw hl hi'
  · rw [hreject]
    exact reject_keeps_inv hr hi'

/-- R106: an output that fits OBUF leaves only cells that exist, and all that OUT_LEN counts. -/
theorem commitOk_keeps_inv {out : List Byte} {s : State} (hr : s.resetPin = false) (hfits : out.length ≤ s.cfg.obufSize)
    (hi : s.Inv) : (commitOk out s).Inv := by
  obtain ⟨⟨hwf, -, hbelow, -⟩, -, -, -, hlatch, ⟨hibuf, -⟩, -⟩ := hi
  have hbuf : BuffersLegal (commitOk out s) :=
    ⟨hwf, memory_ofBytes_wf out 0, hbelow, memory_ofBytes_below out (by simpa using hfits)⟩
  have hstatus : StatusLegal (commitOk out s) := by simp [StatusLegal]
  have hout : OutputLegal (commitOk out s) := by
    refine ⟨(commitOk_outLen_le out s).trans hfits, fun _ => ⟨rfl, rfl, rfl⟩, fun j hj => ?_⟩
    simpa [memory_get_ofBytes] using hj.trans_le (commitOk_outLen_le out s)
  exact ⟨hbuf, hstatus, runLegal_of_idle rfl, hout, hlatch, ⟨Nat.lt_succ_of_lt hibuf, Nat.lt_succ_self _⟩,
    resetLegal_of_released hr⟩

/-- R107. -/
theorem commitErr_keeps_inv {k : ErrKind} {s : State} (hr : s.resetPin = false) (hi : s.Inv) : (commitErr k s).Inv := by
  obtain ⟨⟨hwf, -, hbelow, -⟩, -, -, -, hlatch, ⟨hibuf, -⟩, -⟩ := hi
  have hstatus : StatusLegal (commitErr k s) := by cases k <;> simp [StatusLegal, errCode]
  have hout : OutputLegal (commitErr k s) := by simp [OutputLegal]
  exact ⟨⟨hwf, rfl, hbelow, rfl⟩, hstatus, runLegal_of_idle rfl, hout, hlatch,
    ⟨Nat.lt_succ_of_lt hibuf, Nat.lt_succ_self _⟩, resetLegal_of_released hr⟩

/-! ## The engine -/

/-- The next group is what is left of the input, at most one group (R21, R124). -/
theorem nextGroup_length (s : State) :
    (nextGroup s).length = min (groupSize (opInstr s.eop)) (s.en.toNat - s.ipos.toNat) := by
  rw [nextGroup, List.length_take, List.length_drop, input_length]

theorem groupSize_bounds (i : Instr) : 1 ≤ groupSize i ∧ groupSize i ≤ 4 := by
  cases i <;> decide

/-- ipos moves past the group, and its 17 bits hold every position in IBUF (R21). -/
theorem takeGroup_ipos_toNat {s : State} (hen : s.en.toNat ≤ s.cfg.ibufSize) (hpos : s.ipos.toNat ≤ s.en.toNat) :
    (takeGroup s).ipos.toNat = s.ipos.toNat + (nextGroup s).length := by
  obtain ⟨-, hmax⟩ := ibufSize_bounds s.cfg
  have hlen := nextGroup_length s
  rw [takeGroup_ipos, BitVec.toNat_add, BitVec.toNat_ofNat]
  omega

theorem takeGroup_keeps_inv {s : State} (hp : s.phase = .run) (hi : s.Inv) : (takeGroup s).Inv := by
  obtain ⟨hbuf, hstatus, hrun, hout, -, hdraw, hreset⟩ := hi
  obtain ⟨hcmd, hlen, hen, hpos, houtLen⟩ := hrun hp
  have hgroup := nextGroup_length s
  obtain ⟨-, hsize⟩ := groupSize_bounds (opInstr s.eop)
  have hpos' : (takeGroup s).ipos.toNat ≤ s.en.toNat := by
    rw [takeGroup_ipos_toNat hen hpos]
    omega
  have hlatch : LatchLegal (takeGroup s) := show (nextGroup s).length ≤ 4 by omega
  exact ⟨hbuf, hstatus, fun _ => ⟨hcmd, hlen, hen, hpos', houtLen⟩, hout, hlatch, hdraw, hreset⟩

theorem workStep_keeps_inv {s : State} (hi : s.Inv) : (workStep s).Inv := by
  rcases workStep_cases s with hidle | ⟨hp, -, -, htake⟩
  · rwa [hidle]
  · rw [htake]
    exact takeGroup_keeps_inv hp hi

/-- The commit turn: the length fits IBUF, so the output fits OBUF (R10, R106). -/
theorem engineCommit_keeps_inv {s t : State} (h : engineCommit s = .next t) (hi : s.Inv) : t.Inv := by
  rcases engineCommit_cases s with ⟨-, he⟩ | ⟨hp, he⟩
  · cases h.symm.trans he
    exact hi
  · cases h.symm.trans he
    have hr := released_of_running hi hp
    obtain ⟨hen, -⟩ := lengths_of_running hi hp
    rcases commit_cases (transform (opInstr s.eop) (input s)) s with ⟨out, hok, hcommit⟩ | ⟨k, -, hcommit⟩
    · rw [hcommit]
      exact commitOk_keeps_inv hr (transform_length_le_obufSize ((input_length s).trans_le hen) hok) hi
    · rw [hcommit]
      exact commitErr_keeps_inv hr hi

/-! ## Host accesses and the reset input -/

/-- R61: an access inside IBUF writes only cells that exist. -/
theorem writeBytes_ibuf_keeps_inv {s : State} {i n : Nat} (v : Word) (hr : s.resetPin = false) (hp : s.phase = .idle)
    (hfits : i + n ≤ s.cfg.ibufSize) (hi : s.Inv) :
    State.Inv { s with ibuf := Memory.writeBytes s.ibuf i (leBytes n v) } := by
  obtain ⟨⟨hiwf, howf, hibelow, hobelow⟩, hstatus, -, hout, hlatch, hdraw, -⟩ := hi
  have hbelow := memory_writeBytes_below (leBytes n v) hibelow (by rwa [leBytes_length])
  exact ⟨⟨memory_writeBytes_wf _ i hiwf, howf, hbelow, hobelow⟩, hstatus, runLegal_of_idle hp, hout, hlatch, hdraw,
    resetLegal_of_released hr⟩

theorem hostAccess_keeps_inv {a : Access} {s t : State} (h : hostAccess a s = .next t) (hi : s.Inv) : t.Inv := by
  obtain ⟨hr, h⟩ := hostAccess_cases h
  have ⟨hbuf, hstatus, hrun, hout, hlatch, ⟨hibuf, hobuf⟩, hreset⟩ := hi
  rcases h with ⟨v, rfl⟩ | ⟨v, -, rfl⟩ | ⟨w, -, hp, rfl⟩ | ⟨w, hp, rfl⟩ | ⟨i, n, v, hp, hfits, rfl⟩ | ⟨z, -, rfl⟩ | rfl
  · exact hi
  · exact ⟨hbuf, hstatus, hrun, hout, hlatch, ⟨Nat.lt_succ_of_lt hibuf, Nat.lt_succ_of_lt hobuf⟩, hreset⟩
  · exact issue_keeps_inv hr hp hi
  · exact ⟨hbuf, hstatus, runLegal_of_idle hp, hout, hlatch, ⟨hibuf, hobuf⟩, resetLegal_of_released hr⟩
  · exact writeBytes_ibuf_keeps_inv v hr hp hfits hi
  · exact hi
  · exact hi

/-- R200 to R203: the reset state meets the invariant whatever the state before. -/
theorem applyReset_inv (s : State) : (applyReset s).Inv := by
  have hstatus : StatusLegal (applyReset s) := by simp [StatusLegal]
  have hout : OutputLegal (applyReset s) := by simp [OutputLegal]
  exact ⟨⟨rfl, rfl, rfl, rfl⟩, hstatus, runLegal_of_idle rfl, hout, Nat.zero_le 4,
    ⟨Nat.lt_succ_self _, Nat.lt_succ_self _⟩, fun _ => ⟨rfl, rfl, rfl, rfl, rfl, rfl, rfl, rfl, rfl⟩⟩

theorem releaseReset_keeps_inv {s : State} (hi : s.Inv) : (releaseReset s).Inv := by
  obtain ⟨hbuf, hstatus, hrun, hout, hlatch, hdraw, -⟩ := hi
  exact ⟨hbuf, hstatus, hrun, hout, hlatch, hdraw, resetLegal_of_released rfl⟩

theorem dropTurn_keeps_inv {s : State} (hi : s.Inv) : s.dropTurn.Inv := hi

/-- Settles O50: at each turn, the operation that is performed keeps the invariant. -/
theorem everyStepKeepsTheInvariant : Obligations.EveryStepKeepsTheInvariant := by
  intro s t hi h
  have hi' := dropTurn_keeps_inv hi
  rcases step_cases h with ⟨-, h⟩ | ⟨a, -, -, h⟩ | ⟨-, -, rfl⟩ | ⟨-, -, h⟩ | ⟨-, -, rfl⟩ | ⟨-, -, rfl⟩
  · exact engineCommit_keeps_inv h hi
  · exact hostAccess_keeps_inv h hi'
  · exact workStep_keeps_inv hi'
  · exact engineCommit_keeps_inv h hi'
  · exact applyReset_inv s.dropTurn
  · exact releaseReset_keeps_inv hi'

/-! ## The values of STATUS -/

theorem reset_inv : State.reset.Inv := by decide

/-- R26, R30 to R32: under the rules on its fields STATUS is one of six words, in IDLE or RUN, by DONE, REJ and ERR. -/
theorem statusWord_cases {s : State} (h : StatusLegal s) :
    statusWord s ∈ ([0x00000000#32, 0x00000001#32, 0x00000002#32, 0x00000006#32, 0x0000000A#32, 0x00000012#32] : List Word) := by
  obtain ⟨hrun, hundone, hrej, herr⟩ := h
  cases hp : s.phase with
  | run =>
    obtain ⟨he, hr⟩ := hundone (hrun hp)
    simp [statusWord, State.busy, hp, hrun hp, he, hr]
  | idle =>
    cases hd : s.done with
    | false =>
      obtain ⟨he, hr⟩ := hundone hd
      simp [statusWord_eq_zero hp hd he hr]
    | true =>
      cases hr : s.rej with
      | true => simp [statusWord, State.busy, hp, hd, hr, hrej hr]
      | false =>
        have herr' : ∀ e : BitVec 2, e ≠ 3 → e = 0 ∨ e = 1 ∨ e = 2 := by decide
        rcases herr' s.err herr with he | he | he <;> simp [statusWord, State.busy, hp, hd, hr, he]

/-- Settles O52: the six words are those of the reset state, of an accept, of the three commits and of a reject. -/
theorem statusTakesSixValues : Obligations.StatusTakesSixValues := by
  refine ⟨fun s ⟨_, hstatus, _⟩ => statusWord_cases hstatus, ?_⟩
  simp only [List.forall_mem_cons, List.not_mem_nil, false_imp_iff, implies_true, and_true]
  have hr : State.reset.resetPin = false := rfl
  exact ⟨⟨State.reset, reset_inv, statusWord_eq_zero rfl rfl rfl rfl⟩,
    ⟨accept 0 State.reset, accept_keeps_inv hr rfl rfl rfl reset_inv, statusWord_accept _ _⟩,
    ⟨commitOk [] State.reset, commitOk_keeps_inv hr (Nat.zero_le _) reset_inv, statusWord_commitOk _ _⟩,
    ⟨commitErr .invalidLength State.reset, commitErr_keeps_inv hr reset_inv, statusWord_commitErr _ _⟩,
    ⟨commitErr .invalidCharacter State.reset, commitErr_keeps_inv hr reset_inv, statusWord_commitErr _ _⟩,
    ⟨reject State.reset, reject_keeps_inv hr reset_inv, statusWord_reject _⟩⟩

end Sys2Proof.Machine
end

section
/-! SUPPORT. What a step does at each turn (20_memory.md section 7, 40_command_engine.md section 1, 70_reset_and_hazards.md
section 1), and what an idle block keeps. -/

namespace Sys2Proof.Machine

/-! ## One equation for each turn -/

theorem dropTurn_eq {s : State} {m : Turn} {rest : List Turn} (h : s.turns = m :: rest) :
    s.dropTurn = { s with turns := rest } := by
  rw [State.dropTurn, h]
  rfl

theorem step_nil {s : State} (h : s.turns = []) : step s = engineCommit s := by
  simp [step, h]

theorem step_host {s : State} {a : Access} {rest : List Turn} (h : s.turns = .host a :: rest) :
    step s = hostAccess a { s with turns := rest } := by
  simp [step, h, dropTurn_eq h]

theorem step_engineWork {s : State} {rest : List Turn} (h : s.turns = .engineWork :: rest) :
    step s = .next (workStep { s with turns := rest }) := by
  simp [step, h, dropTurn_eq h]

theorem step_engineCommit {s : State} {rest : List Turn} (h : s.turns = .engineCommit :: rest) :
    step s = engineCommit { s with turns := rest } := by
  simp [step, h, dropTurn_eq h]

theorem step_resetOn {s : State} {rest : List Turn} (h : s.turns = .resetOn :: rest) :
    step s = .next (applyReset { s with turns := rest }) := by
  simp [step, h, dropTurn_eq h]

theorem step_resetOff {s : State} {rest : List Turn} (h : s.turns = .resetOff :: rest) :
    step s = .next (releaseReset { s with turns := rest }) := by
  simp [step, h, dropTurn_eq h]

/-! ## The engine in each phase -/

theorem engineCommit_of_idle {s : State} (hp : s.phase = .idle) : engineCommit s = .next s := by
  simp [engineCommit, hp]

theorem engineCommit_of_run {s : State} (hp : s.phase = .run) : engineCommit s = exec (opInstr s.eop) s := by
  simp [engineCommit, hp]

theorem workStep_of_idle {s : State} (hp : s.phase = .idle) : workStep s = s := by
  simp [workStep, hp]

theorem workStep_of_loop {s : State} {out : List Byte} (hp : s.phase = .run)
    (hok : transform (opInstr s.eop) (input s) = .ok out) (hl : loopEnded s = false) : workStep s = takeGroup s := by
  simp [workStep, hp, hok, hl]

/-- R104: whatever a work step does, only the working registers show it. -/
theorem workStep_frame (s : State) :
    workStep s = { s with ipos := (workStep s).ipos, opos := (workStep s).opos, latch := (workStep s).latch } := by
  rcases workStep_cases s with h | ⟨-, -, -, h⟩
  · rw [h]
  · rw [h]
    rfl

/-- The command that CMD decodes to is the one latched in eop (R91, R103). -/
theorem opInstr_eop_of_runLegal {s : State} {i : Instr} (h : RunLegal s) (hp : s.phase = .run)
    (hi : decodeWord s.cmd = .ok i) : opInstr s.eop = i := by
  obtain ⟨hcmd, -⟩ := h hp
  have henc : s.cmd = encode (opInstr s.eop) := by rw [hcmd, encode, instrOp_opInstr]
  rw [henc, decodeWord_encode] at hi
  exact Except.ok.inj hi

/-! ## The obligations on single turns -/

/-- Settles O45: the commit turn executes the latched command, which is the decoded one. -/
theorem stepRunsTheDecodedCommand : Obligations.StepRunsTheDecodedCommand := by
  intro s i hlegal hp hi
  rw [← opInstr_eop_of_runLegal hlegal hp hi]
  exact ⟨fun rest ht => (step_engineCommit ht).trans (engineCommit_of_run hp),
    fun ht => (step_nil ht).trans (engineCommit_of_run hp)⟩

/-- Settles O46, turn by turn; an idle engine's turn does nothing. -/
theorem stepTakesTheOtherTurns : Obligations.StepTakesTheOtherTurns := by
  intro s m rest ht
  refine ⟨fun a hm => step_host (hm ▸ ht), fun hp hm => ?_, fun hm => step_resetOff (hm ▸ ht), fun hp => ?_⟩
  · rcases hm with rfl | rfl
    · exact (step_engineWork ht).trans (congrArg _ (workStep_of_idle hp))
    · exact (step_engineCommit ht).trans (engineCommit_of_idle hp)
  · exact (step_nil rfl).trans (engineCommit_of_idle hp)

/-- Settles O48: the fields of the reset state, and the reset input that refuses every access. -/
theorem resetAbortsTheCommand : Obligations.ResetAbortsTheCommand := by
  intro s rest ht
  refine ⟨_, step_resetOn ht, rfl, statusWord_eq_zero rfl rfl rfl rfl, rfl, rfl, rfl, rfl, rfl, rfl, rfl, rfl, ?_⟩
  intro a
  rfl

/-- Settles O53, from the frame of a work step. -/
theorem workStepsAreInvisible : Obligations.WorkStepsAreInvisible := by
  intro s rest ht
  exact ⟨_, step_engineWork ht, workStep_frame _⟩

/-! ## An idle block between commands (20_memory.md section 7) -/

/-- What the host can read of the last command's outcome, and the phase, are the same in both states. -/
def SameResult (s t : State) : Prop :=
  t.cmd = s.cmd ∧ statusWord t = statusWord s ∧ t.outLen = s.outLen ∧ t.phase = s.phase ∧ ∀ j, obufByte t j = obufByte s j

theorem sameResult_refl (s : State) : SameResult s s := ⟨rfl, rfl, rfl, rfl, fun _ => rfl⟩

theorem hostAccess_keeps_result {a : Access} {s t : State} (h : hostAccess a s = .next t) (hp : s.phase = .idle)
    (hcmd : ∀ n w, a ≠ .write 0x00000#18 n w) : SameResult s t := by
  have hrun : s.phase ≠ .run := fun hrun => nomatch hp.symm.trans hrun
  obtain ⟨-, h⟩ := hostAccess_cases h
  rcases h with ⟨v, rfl⟩ | ⟨v, hp', -⟩ | ⟨w, rfl, -⟩ | ⟨w, -, rfl⟩ | ⟨i, n, v, -, -, rfl⟩ | ⟨z, hp', -⟩ | rfl
  · exact sameResult_refl _
  · exact absurd hp' hrun
  · exact absurd rfl (hcmd 4 w)
  · exact sameResult_refl _
  · exact sameResult_refl _
  · exact absurd hp' hrun
  · exact sameResult_refl _

/-- Settles O55: an idle engine's turn and a released reset leave the registers alone, and so does every access but a CMD
write. -/
theorem committedResultIsStable : Obligations.CommittedResultIsStable := by
  intro s t hp h hreset hwrite
  suffices hsame : SameResult s t by
    obtain ⟨hcmd, hstatus, hout, hphase, hobuf⟩ := hsame
    exact ⟨hcmd, hstatus, hout, hphase.trans hp, hobuf⟩
  have hcommit : ∀ u : State, u.phase = .idle → engineCommit u = .next t → t = u := fun u hu he =>
    Host.Outcome.next.inj (he.symm.trans (engineCommit_of_idle hu))
  rcases step_cases h with ⟨-, he⟩ | ⟨a, rest, ht, ha⟩ | ⟨rest, -, rfl⟩ | ⟨rest, -, he⟩ | ⟨rest, ht, -⟩ | ⟨rest, -, rfl⟩
  · rw [hcommit s hp he]
    exact sameResult_refl _
  · exact hostAccess_keeps_result (s := s.dropTurn) ha hp fun n w ha => hwrite n w (by simp [ht, ha])
  · rw [workStep_of_idle (s := s.dropTurn) hp]
    exact sameResult_refl _
  · rw [hcommit s.dropTurn hp he]
    exact sameResult_refl _
  · exact absurd (by simp [ht]) hreset
  · exact sameResult_refl _

end Sys2Proof.Machine
end

section
/-! SUPPORT. The engine's group loop: how the output splits at a group, that every step keeps ipos and opos where the loop is
(10_state.md R20, R21, 40_command_engine.md R104, R113), and how ipos advances. -/

namespace Sys2Proof.Machine

/-! ## The output splits at a group -/

@[simp] theorem emit_nil (i : Instr) : emit i [] = [] := by
  cases i <;> rfl

/-- What is emitted for a full group, and for what follows it unless it terminates (R113, R134). -/
theorem emit_append {i : Instr} {g : List Byte} (hfull : g.length = groupSize i)
    (hcont : i = .b64dec → ∀ s0 s1 s2 s3, g = [s0, s1, s2, s3] → (u64d s0 s1 s2 s3).fin = false) (rest : List Byte) :
    emit i (g ++ rest) = emit i g ++ emit i rest := by
  cases i with
  | b64enc =>
    obtain ⟨b0, b1, b2, rfl⟩ := List.length_eq_three.1 hfull
    simp [emit, b64Enc]
  | b64dec =>
    match g, hfull with
    | [s0, s1, s2, s3], _ =>
      have hfin := hcont rfl s0 s1 s2 s3 rfl
      exact (b64DecGroups_of_not_fin rest hfin).trans
        (congrArg (· ++ b64DecGroups rest) ((b64DecGroups_of_not_fin [] hfin).trans (List.append_nil _)).symm)
  | b16enc =>
    obtain ⟨b, rfl⟩ := List.length_eq_one_iff.1 hfull
    rfl
  | b16dec =>
    obtain ⟨h, l, rfl⟩ := List.length_eq_two.1 hfull
    rfl

/-! ## When the loop has ended -/

theorem latchFin_eq_true_iff (s : State) :
    latchFin s = true ↔ ∃ s0 s1 s2 s3, s.latch = [s0, s1, s2, s3] ∧ (u64d s0 s1 s2 s3).fin = true := by
  unfold latchFin
  split
  · rename_i s0 s1 s2 s3 hl
    simp [hl]
  · rename_i hl
    simpa using fun s0 s1 s2 s3 h => (hl s0 s1 s2 s3 h).elim

theorem loopEnded_eq_true_iff (s : State) :
    loopEnded s = true ↔ s.en.toNat ≤ s.ipos.toNat ∨ opInstr s.eop = .b64dec ∧ latchFin s = true := by
  simp [loopEnded]

theorem loopEnded_eq_false_iff (s : State) :
    loopEnded s = false ↔ s.ipos.toNat < s.en.toNat ∧ (opInstr s.eop = .b64dec → latchFin s = false) := by
  simp [loopEnded]

/-! ## The loop invariant, phase by phase -/

theorem loopLegal_of_idle {s : State} (hp : s.phase = .idle) : LoopLegal s :=
  fun hrun => nomatch hp.symm.trans hrun

/-- What the loop invariant says of a running command whose input is not in error. -/
theorem loopLegal_iff_of_ok {s : State} {out : List Byte} (hp : s.phase = .run)
    (hok : transform (opInstr s.eop) (input s) = .ok out) :
    LoopLegal s ↔
      s.opos.toNat = (emitted s).length
        ∧ (loopEnded s = false → ∀ rest : List Byte,
            emit (opInstr s.eop) ((input s).take s.ipos.toNat ++ rest) = emitted s ++ emit (opInstr s.eop) rest)
        ∧ (loopEnded s = true → emitted s = out) := by
  simp [LoopLegal, hp, hok]

/-- At the accept nothing has been taken and nothing emitted, and the loop has ended only on an empty input (R21, R103). -/
theorem accept_loopLegal (w : Word) (s : State) : LoopLegal (accept w s) := by
  intro _
  have hemitted : emitted (accept w s) = [] := emit_nil _
  split
  · exact ⟨rfl, rfl⟩
  · rename_i out hok
    refine ⟨by simp [hemitted], fun _ rest => by simp [hemitted], fun hended => ?_⟩
    rcases (loopEnded_eq_true_iff _).1 hended with hempty | ⟨-, hfin⟩
    · have hinput : input (accept w s) = [] := List.eq_nil_of_length_eq_zero (by
        rw [input_length]
        exact Nat.le_zero.1 hempty)
      rw [hemitted, transform_ok hok, hinput, emit_nil]
    · cases hfin

/-! ## Taking one group -/

/-- The elements before the new ipos are those before the old one and the group (R21). -/
theorem take_takeGroup_ipos {s : State} (hpos : (takeGroup s).ipos.toNat = s.ipos.toNat + (nextGroup s).length) :
    (input s).take (takeGroup s).ipos.toNat = (input s).take s.ipos.toNat ++ nextGroup s := by
  rw [hpos, List.take_add, nextGroup, List.length_take, ← List.take_eq_take_min]

/-- What a running command has emitted fits OBUF (R10). -/
theorem emitted_length_le {s : State} (hen : s.en.toNat ≤ s.cfg.ibufSize) : (emitted s).length ≤ s.cfg.obufSize := by
  obtain ⟨hb16, hb64, -⟩ := obufSize_bounds s.cfg
  have hemit := emit_length_le (opInstr s.eop) ((input s).take s.ipos.toNat)
  rw [List.length_take, input_length] at hemit
  unfold emitted
  omega

/-- A group that is not the last one is full (R124). -/
theorem nextGroup_full {s : State} (h : s.ipos.toNat + (nextGroup s).length < s.en.toNat) :
    (nextGroup s).length = groupSize (opInstr s.eop) := by
  rw [nextGroup_length] at h ⊢
  omega

/-- Once the loop has ended with this group, nothing that is left of the input adds to what the group emits (R113, R141). -/
theorem emit_nextGroup_of_ended {s : State} (hpos : (takeGroup s).ipos.toNat = s.ipos.toNat + (nextGroup s).length)
    (hended : loopEnded (takeGroup s) = true) :
    emit (opInstr s.eop) ((input s).drop s.ipos.toNat) = emit (opInstr s.eop) (nextGroup s) := by
  rcases (loopEnded_eq_true_iff _).1 hended with hused | ⟨hdec, hfin⟩
  · have hall : nextGroup s = (input s).drop s.ipos.toNat := by
      rw [takeGroup_en, hpos, nextGroup_length] at hused
      refine List.take_of_length_le ?_
      rw [List.length_drop, input_length]
      omega
    rw [hall]
  · obtain ⟨s0, s1, s2, s3, hg, hfin⟩ := (latchFin_eq_true_iff _).1 hfin
    rw [takeGroup_latch] at hg
    rw [takeGroup_eop] at hdec
    have hsplit := List.take_append_drop (groupSize (opInstr s.eop)) ((input s).drop s.ipos.toNat)
    rw [← nextGroup, hg] at hsplit
    rw [← hsplit, hg, hdec]
    exact (b64DecGroups_of_fin _ hfin).trans (b64DecGroups_of_fin [] hfin).symm

theorem takeGroup_keeps_loopLegal {s : State} {out : List Byte} (hi : s.Inv) (hp : s.phase = .run)
    (hok : transform (opInstr s.eop) (input s) = .ok out) (hgoing : loopEnded s = false) (hl : LoopLegal s) :
    LoopLegal (takeGroup s) := by
  obtain ⟨hen, hle⟩ := lengths_of_running hi hp
  obtain ⟨hopos, hcont, -⟩ := (loopLegal_iff_of_ok hp hok).1 hl
  replace hcont := hcont hgoing
  have hpos := takeGroup_ipos_toNat hen hle
  have htake := take_takeGroup_ipos hpos
  have hemitted : emitted (takeGroup s) = emitted s ++ emit (opInstr s.eop) (nextGroup s) := by
    rw [← hcont, ← htake]
    rfl
  refine (loopLegal_iff_of_ok (s := takeGroup s) hp hok).2 ⟨?_, fun hgoing' rest => ?_, fun hended => ?_⟩
  · have hfits := emitted_length_le (s := takeGroup s) hen
    obtain ⟨-, -, hmax⟩ := obufSize_bounds (takeGroup s).cfg
    rw [hemitted, List.length_append] at hfits ⊢
    rw [takeGroup_opos, BitVec.toNat_add, BitVec.toNat_ofNat, hopos]
    omega
  · obtain ⟨hlt, hnotFin⟩ := (loopEnded_eq_false_iff _).1 hgoing'
    have hfull := nextGroup_full (hpos ▸ hlt)
    have hgroup := emit_append hfull (fun hdec s0 s1 s2 s3 hg => by
      by_contra hfin
      have hlatch := (latchFin_eq_true_iff (takeGroup s)).2 ⟨s0, s1, s2, s3, hg, by simpa using hfin⟩
      exact nomatch (hnotFin hdec).symm.trans hlatch) rest
    calc emit (opInstr s.eop) ((input s).take (takeGroup s).ipos.toNat ++ rest)
      _ = emitted s ++ emit (opInstr s.eop) (nextGroup s ++ rest) := by rw [htake, List.append_assoc, hcont]
      _ = emitted (takeGroup s) ++ emit (opInstr s.eop) rest := by rw [hgroup, hemitted, List.append_assoc]
  · have hrest := emit_nextGroup_of_ended hpos hended
    calc emitted (takeGroup s)
      _ = emit (opInstr s.eop) ((input s).take s.ipos.toNat ++ (input s).drop s.ipos.toNat) := by
        rw [hemitted, hcont, hrest]
      _ = out := by rw [List.take_append_drop, transform_ok hok]

/-! ## Every step -/

theorem workStep_keeps_loopLegal {s : State} (hi : s.Inv) (hl : LoopLegal s) : LoopLegal (workStep s) := by
  rcases workStep_cases s with h | ⟨hp, ⟨out, hok⟩, hgoing, h⟩
  · rwa [h]
  · rw [h]
    exact takeGroup_keeps_loopLegal hi hp hok hgoing hl

/-- A command starts in its loop; no other access touches what the loop invariant speaks of while the engine runs (R108). -/
theorem hostAccess_keeps_loopLegal {a : Access} {s t : State} (h : hostAccess a s = .next t) (hl : LoopLegal s) :
    LoopLegal t := by
  obtain ⟨-, h⟩ := hostAccess_cases h
  rcases h with ⟨v, rfl⟩ | ⟨v, -, rfl⟩ | ⟨w, -, -, rfl⟩ | ⟨w, hp, rfl⟩ | ⟨i, n, v, hp, -, rfl⟩ | ⟨z, -, rfl⟩ | rfl
  · exact hl
  · exact hl
  · rcases issue_cases w { s with cmd := w } with ⟨-, -, haccept⟩ | ⟨-, hreject⟩
    · rw [haccept]
      exact accept_loopLegal w _
    · rw [hreject]
      exact loopLegal_of_idle rfl
  · exact loopLegal_of_idle hp
  · exact loopLegal_of_idle hp
  · exact hl
  · exact hl

theorem engineCommit_loopLegal {s t : State} (h : engineCommit s = .next t) : LoopLegal t := by
  rcases engineCommit_cases s with ⟨hp, he⟩ | ⟨hp, he⟩
  · cases h.symm.trans he
    exact loopLegal_of_idle hp
  · cases h.symm.trans he
    rcases commit_cases (transform (opInstr s.eop) (input s)) s with ⟨out, -, hc⟩ | ⟨k, -, hc⟩
    · rw [hc]
      exact loopLegal_of_idle rfl
    · rw [hc]
      exact loopLegal_of_idle rfl

theorem dropTurn_keeps_loopLegal {s : State} (hl : LoopLegal s) : LoopLegal s.dropTurn := hl

/-- Settles O51: a commit and a reset leave the engine IDLE, a host access starts a command or leaves the loop alone, and a
work step takes one group. -/
theorem everyStepKeepsTheGroupLoop : Obligations.EveryStepKeepsTheGroupLoop := by
  intro s t hi hl h
  have hl' := dropTurn_keeps_loopLegal hl
  rcases step_cases h with ⟨-, h⟩ | ⟨a, -, -, h⟩ | ⟨-, -, rfl⟩ | ⟨-, -, h⟩ | ⟨-, -, rfl⟩ | ⟨-, -, rfl⟩
  · exact engineCommit_loopLegal h
  · exact hostAccess_keeps_loopLegal h hl'
  · exact workStep_keeps_loopLegal (dropTurn_keeps_inv hi) hl'
  · exact engineCommit_loopLegal h
  · exact loopLegal_of_idle rfl
  · exact hl'

/-- Settles O49: the engine is IDLE at reset, so the loop invariant asks nothing. -/
theorem invariantHoldsAtReset : Obligations.InvariantHoldsAtReset := ⟨reset_inv, loopLegal_of_idle rfl⟩

/-! ## How ipos advances (10_state.md R21) -/

/-- A CMD write leaves the engine running only by the accept. -/
theorem ipos_of_issue_running {w : Word} {s : State} (hrun : (issue w s).phase = .run) : (issue w s).ipos = 0 := by
  rcases issue_cases w s with ⟨-, -, haccept⟩ | ⟨-, hreject⟩
  · rw [haccept]
    rfl
  · rw [hreject] at hrun
    cases hrun

/-- The group is as long as the group size, or as what is left of the input. -/
theorem takeGroup_ipos_eq_min {s : State} (hen : s.en.toNat ≤ s.cfg.ibufSize) (hle : s.ipos.toNat ≤ s.en.toNat) :
    (takeGroup s).ipos.toNat = min (s.ipos.toNat + groupSize (opInstr s.eop)) s.en.toNat := by
  rw [takeGroup_ipos_toNat hen hle, nextGroup_length]
  omega

/-- Settles O54: the accept sets ipos to 0, and a work step before the loop has ended takes one group. -/
theorem iposStartsAtZeroAndAdvancesByTheGroupSize : Obligations.IposStartsAtZeroAndAdvancesByTheGroupSize := by
  refine ⟨fun s t w hp h hrun => ?_, fun s rest out hi hp ht hok hgoing => ?_⟩
  · obtain ⟨hr, -⟩ := hostAccess_cases h
    cases (hostAccess_write_cmd_of_idle w hr hp).symm.trans h
    exact ipos_of_issue_running hrun
  · obtain ⟨hen, hle⟩ := lengths_of_running hi hp
    refine ⟨takeGroup { s with turns := rest }, ?_, ?_, rfl⟩
    · exact (step_engineWork ht).trans (congrArg _ (workStep_of_loop hp hok hgoing))
    · exact takeGroup_ipos_eq_min (s := { s with turns := rest }) hen hle

end Sys2Proof.Machine
end

section
/-! SUPPORT. The decoder against the encoder, and the four tables as inverses of one another (30_encoding.md R81 to R92). -/

namespace Sys2Proof.Machine

/-- Settles O1: the decoder inverts the encoder, and a word decodes only to the command it encodes. -/
theorem decodeAndEncodeAgree : Obligations.DecodeAndEncodeAgree :=
  ⟨fun i _ => decodeWord_encode i, fun w i h => ((decodeWord_eq_ok_iff w i).1 h).symm⟩

/-- A command word read as a 32-bit table word loses no bit. -/
theorem decodeTableWord_encode (i : Instr) : decodeTableWord 32 (encode i).toNat = some i := by
  have hlt : (encode i).toNat % 2 ^ 32 = (encode i).toNat := Nat.mod_eq_of_lt (encode i).isLt
  rw [decodeTableWord, hlt, if_pos (encode i).isLt, BitVec.ofNat_toNat, BitVec.setWidth_eq, decodeWord_encode]

/-- Settles O3: each word is the encoding of its command, also where it is read as a table word. -/
theorem opcodeMapWordsDecode : Obligations.OpcodeMapWordsDecode :=
  ⟨decodeWord_encode .b64enc, decodeWord_encode .b64dec, decodeWord_encode .b16enc, decodeWord_encode .b16dec,
    decodeTableWord_encode .b64enc, decodeTableWord_encode .b64dec, decodeTableWord_encode .b16enc,
    decodeTableWord_encode .b16dec,
    (decodeWord_eq_error_iff _).2 (by decide)⟩

/-! ## Counting codes -/

/-- The numbers below `m * n` in `m` rows of `n`, as the spec lays the codes out in its grid (R87). -/
theorem length_filter_range_mul (p : Nat → Bool) (m n : Nat) :
    ((List.range (m * n)).filter p).length =
      ((List.range m).map fun row => ((List.range n).filter fun i => p (row * n + i)).length).sum := by
  induction m with
  | zero => simp
  | succ m ih =>
    rw [Nat.succ_mul, List.range_add, List.filter_append, List.length_append, ih, List.filter_map, List.length_map,
      List.range_succ, List.map_append, List.sum_append, List.map_singleton, List.sum_singleton]
    rfl

/-! ## LUT64 and INV64 (R86, R87) -/

/-- R86, range by range. -/
theorem lut64_toNat (i : BitVec 6) :
    (lut64 i).toNat =
      if i.toNat ≤ 25 then 0x41 + i.toNat
      else if i.toNat ≤ 51 then 0x47 + i.toNat
      else if i.toNat ≤ 61 then i.toNat - 4
      else if i.toNat = 62 then 0x2B else 0x2F := by
  have hi := i.isLt
  unfold lut64
  split_ifs
  · exact Nat.mod_eq_of_lt (by omega)
  · exact Nat.mod_eq_of_lt (by omega)
  · exact Nat.mod_eq_of_lt (by omega)
  · rfl
  · rfl

/-- The value of every code in the alphabet is its index there, tested on all 256 codes. -/
theorem lut64_of_inv64 {c : Byte} {v : BitVec 6} (h : inv64 c = .val v) : lut64 v = c := by
  have hall : ∀ c : Byte, inv64 c = .pad ∨ inv64 c = .invalid ∨ lut64 (val64 c) = c := by decide
  have hc := hall c
  simpa [val64, h] using hc

theorem inv64_eq_val_iff (c : Byte) (v : BitVec 6) : inv64 c = .val v ↔ c = lut64 v :=
  ⟨fun h => (lut64_of_inv64 h).symm, fun h => h ▸ inv64_lut64 v⟩

theorem inv64_eq_pad_iff (c : Byte) : inv64 c = .pad ↔ c = padCode := by
  revert c
  decide

/-- Log entry 14: 191, counted in 16 rows of 16 codes. -/
theorem inv64_invalid_count :
    ((List.range 256).filter fun c => inv64 (BitVec.ofNat 8 c) == .invalid).length = 191 :=
  (length_filter_range_mul _ 16 16).trans (by decide)

/-- Settles O4: the formula of each range, the inverse, and the count of the codes outside the ranges. -/
theorem inv64InvertsLut64 : Obligations.Inv64InvertsLut64 := by
  refine ⟨fun i => ?_, inv64_eq_val_iff, inv64_eq_pad_iff, inv64_invalid_count⟩
  have hi := i.isLt
  rw [lut64_toNat]
  refine ⟨fun h => if_pos h, fun h1 h2 => ?_, fun h1 h2 => ?_, fun h => ?_, fun h => ?_⟩
  all_goals split_ifs <;> omega

/-! ## LUT16 and INV16 (R88, R89) -/

/-- R88, range by range. -/
theorem lut16_toNat (i : BitVec 4) :
    (lut16 i).toNat = if i.toNat ≤ 9 then 0x30 + i.toNat else 0x37 + i.toNat := by
  have hi := i.isLt
  unfold lut16
  split_ifs
  · exact Nat.mod_eq_of_lt (by omega)
  · exact Nat.mod_eq_of_lt (by omega)

/-- As for Base64, tested on all 256 codes. -/
theorem lut16_of_inv16 {c : Byte} {v : BitVec 4} (h : inv16 c = .val v) : lut16 v = c := by
  have hall : ∀ c : Byte, inv16 c = .invalid ∨ lut16 (val16 c) = c := by decide
  have hc := hall c
  simpa [val16, h] using hc

theorem inv16_eq_val_iff (c : Byte) (v : BitVec 4) : inv16 c = .val v ↔ c = lut16 v :=
  ⟨fun h => (lut16_of_inv16 h).symm, fun h => h ▸ inv16_lut16 v⟩

/-- R89: a code outside the two ranges has no value. -/
theorem inv16_eq_invalid {c : Byte} (hdigit : 0x39 < c.toNat) (hupper : 0x46 < c.toNat) : inv16 c = .invalid := by
  unfold inv16
  rw [if_neg (by omega), if_neg (by omega)]

theorem inv16_invalid_count :
    ((List.range 256).filter fun c => inv16 (BitVec.ofNat 8 c) == .invalid).length = 240 :=
  (length_filter_range_mul _ 16 16).trans (by decide)

/-- Settles O5: the formula of each range, the inverse, and the codes outside the ranges. -/
theorem inv16InvertsLut16 : Obligations.Inv16InvertsLut16 := by
  refine ⟨fun i => ?_, inv16_eq_val_iff, inv16_invalid_count, fun c h _ => ?_, by decide⟩
  · rw [lut16_toNat]
    exact ⟨fun h => if_pos h, fun h => if_neg (by omega)⟩
  · exact inv16_eq_invalid (by omega) (by omega)

end Sys2Proof.Machine
end

section
/-! SUPPORT. The units U64E and U64D on one group: missing bytes, the source's shift formulas, and U64D as the inverse of U64E
(41_base64_encode.md R121, R122, 42_base64_decode.md R131 to R134). -/

namespace Sys2Proof.Machine

/-! ## U64E -/

/-- For one byte the second sextet is a multiple of 16, since the low four bits come from a missing byte (R122). -/
theorem lut64_append_zero_mem (x : BitVec 2) :
    lut64 (x ++ 0#4) ∈ ([0x41#8, 0x51#8, 0x67#8, 0x77#8] : List Byte) := by
  revert x
  decide

/-- Settles O7: no missing byte occurs in the symbols of a partial group. -/
theorem u64eIgnoresMissingBytes : Obligations.U64eIgnoresMissingBytes := by
  intro b0 b1 b2 c1 c2
  refine ⟨?_, ?_, ?_⟩
  · rw [u64e_one, u64e_one]
  · rw [u64e_two, u64e_two]
  · rw [u64e_one]
    exact lut64_append_zero_mem _

/-! ## U64D against the shift formulas of the source (R132, R133) -/

/-- A symbol of the alphabet has its index as its value, and `=` has the value 0 (R131). -/
theorem symbol_value {c : Byte} {v : BitVec 6} (h : c = lut64 v ∨ c = padCode ∧ v = 0) :
    inv64 c ≠ .invalid ∧ val64 c = v := by
  rcases h with rfl | ⟨rfl, rfl⟩
  · exact ⟨inv64_lut64_ne_invalid v, val64_lut64 v⟩
  · exact ⟨inv64_padCode_ne_invalid, val64_padCode⟩

/-- The high bits of a sextet are its right shift. -/
theorem extractLsb'_high_toNat (v : BitVec 6) {start len : Nat} (h : start + len = 6) :
    (v.extractLsb' start len).toNat = v.toNat >>> start := by
  have hv := v.isLt
  rw [BitVec.extractLsb'_toNat, Nat.shiftRight_eq_div_pow]
  refine Nat.mod_eq_of_lt (Nat.div_lt_of_lt_mul ?_)
  rwa [← Nat.pow_add, h]

/-- The low bits of a sextet are its mask. -/
theorem extractLsb'_low_toNat (v : BitVec 6) (len : Nat) :
    (v.extractLsb' 0 len).toNat = v.toNat &&& (2 ^ len - 1) := by
  rw [BitVec.extractLsb'_toNat, Nat.shiftRight_zero, Nat.and_two_pow_sub_one_eq_mod]

/-- Settles O8: the concatenations of R132 as shifts and ors. -/
theorem u64dEqualsTheShiftFormulas : Obligations.U64dEqualsTheShiftFormulas := by
  intro s0 s1 s2 s3 v0 v1 v2 v3 h0 h1 h2 h3
  obtain ⟨hs0, rfl⟩ := symbol_value h0
  obtain ⟨hs1, rfl⟩ := symbol_value h1
  obtain ⟨hs2, rfl⟩ := symbol_value h2
  obtain ⟨hs3, rfl⟩ := symbol_value h3
  rw [u64d_valid hs0 hs1 hs2 hs3]
  refine ⟨rfl, ?_, ?_, ?_⟩
  · rw [BitVec.toNat_append, extractLsb'_high_toNat _ rfl]
  · rw [BitVec.toNat_append, extractLsb'_low_toNat, extractLsb'_high_toNat _ rfl]
    rfl
  · rw [BitVec.toNat_append, extractLsb'_low_toNat]
    rfl

/-! ## U64D gives back what U64E packed -/

/-- Settles O10: U64D puts the bytes together again from the sextets, and the padding says how many there were. -/
theorem u64dGivesBackTheGroupOfU64e : Obligations.U64dGivesBackTheGroupOfU64e := by
  intro b0 b1 b2
  refine ⟨?_, ?_, ?_⟩
  · rw [u64e_three]
    simp only [u64d_lut64, byte0_of_sextets, byte1_of_sextets, byte2_of_sextets]
    exact ⟨rfl, trivial⟩
  · rw [u64e_two]
    simp only [u64d_lut64_pad, byte0_of_sextets, byte1_of_sextets]
    exact ⟨rfl, trivial⟩
  · rw [u64e_one]
    simp only [u64d_lut64_pad_pad, byte0_of_sextets]
    exact ⟨rfl, trivial⟩

end Sys2Proof.Machine
end

section
/-! SUPPORT. Laws of the transforms: where B64Enc pads (41_base64_encode.md R126), how long B64Dec's output is
(42_base64_decode.md R142), and that Base16 text is canonical (44_base16_decode.md R167). -/

namespace Sys2Proof.Machine

/-! ## Padding (R121, R126) -/

/-- A full group has no `=`. -/
theorem padCode_notMem_u64eSymbols_three (b0 b1 b2 : Byte) : padCode ∉ u64eSymbols b0 b1 b2 3 := by
  rw [u64eSymbols, u64e_three]
  simp [(lut64_ne_padCode _).symm]

theorem u64eSymbols_two_padding (b0 b1 b2 : Byte) :
    ∃ body, u64eSymbols b0 b1 b2 2 = body ++ [padCode] ∧ padCode ∉ body := by
  rw [u64eSymbols, u64e_two]
  exact ⟨[_, _, _], rfl, by simp [(lut64_ne_padCode _).symm]⟩

theorem u64eSymbols_one_padding (b0 b1 b2 : Byte) :
    ∃ body, u64eSymbols b0 b1 b2 1 = body ++ [padCode, padCode] ∧ padCode ∉ body := by
  rw [u64eSymbols, u64e_one]
  exact ⟨[_, _], rfl, by simp [(lut64_ne_padCode _).symm]⟩

/-- Settles O13, by the groups of the input: a full group has no `=`, and the last, partial one has as many as it lacks
bytes. -/
theorem b64EncPaddingLaw : Obligations.B64EncPaddingLaw := by
  intro b
  induction b using b64Enc.induct with
  | case1 => exact ⟨[], rfl, List.not_mem_nil⟩
  | case2 b0 => exact u64eSymbols_one_padding b0 0x00#8 0x00#8
  | case3 b0 b1 => exact u64eSymbols_two_padding b0 b1 0x00#8
  | case4 b0 b1 b2 rest ih =>
    obtain ⟨body, hbody, hnone⟩ := ih
    have hgroup := padCode_notMem_u64eSymbols_three b0 b1 b2
    have hlen : (b0 :: b1 :: b2 :: rest).length % 3 = rest.length % 3 := Nat.add_mod_right rest.length 3
    refine ⟨u64eSymbols b0 b1 b2 3 ++ body, ?_, fun hmem => (List.mem_append.1 hmem).elim hgroup hnone⟩
    rw [b64Enc, hbody, hlen, List.append_assoc]

/-! ## The length of a decoded text (R134, R142) -/

/-- In a valid text the third and fourth symbol of a group decide whether it terminates, and with how many bytes. -/
theorem groupAt_count_cases {inp : List Byte} {g : Nat} (hvalid : ∀ c ∈ inp, inv64 c ≠ .invalid)
    (hg : 4 * g + 3 < inp.length) :
    (inp[4 * g + 2]? = some padCode ∧ (groupAt inp g).k = 1 ∧ (groupAt inp g).fin = true)
      ∨ (inp[4 * g + 2]? ≠ some padCode ∧ inp[4 * g + 3]? = some padCode
          ∧ (groupAt inp g).k = 2 ∧ (groupAt inp g).fin = true)
      ∨ (inp[4 * g + 2]? ≠ some padCode ∧ inp[4 * g + 3]? ≠ some padCode ∧ (groupAt inp g).fin = false) := by
  have herr := groupAt_err hvalid hg
  have h2 : inp[4 * g + 2]? = some inp[4 * g + 2] := List.getElem?_eq_getElem (by omega)
  have h3 : inp[4 * g + 3]? = some inp[4 * g + 3] := List.getElem?_eq_getElem hg
  rw [groupAt_eq hg] at herr ⊢
  rw [h2, h3, Ne, Ne, Option.some_inj, Option.some_inj]
  rcases u64d_count_cases herr with h | h | ⟨hs2, hs3, -, hfin⟩
  · exact .inl h
  · exact .inr (.inl h)
  · exact .inr (.inr ⟨hs2, hs3, hfin⟩)

/-- Settles O17: the groups before the first terminating one give three bytes each, and that one its count. -/
theorem b64DecLengthLaw : Obligations.B64DecLengthLaw := by
  intro inp out hok
  obtain ⟨hlen, hvalid, rfl⟩ := (b64Dec_eq_ok_iff _ _).1 hok
  have hfits (g : Nat) (hg : g < inp.length / 4) : 4 * g + 3 < inp.length := by omega
  have hcont (g : Nat) (hg : g < inp.length / 4) (h : inp[4 * g + 2]? ≠ some padCode ∧ inp[4 * g + 3]? ≠ some padCode) :
      (groupAt inp g).fin = false := by
    obtain ⟨h2, h3⟩ := h
    rcases groupAt_count_cases hvalid (hfits g hg) with ⟨hs2, -⟩ | ⟨-, hs3, -⟩ | ⟨-, -, hfin⟩
    · exact absurd hs2 h2
    · exact absurd hs3 h3
    · exact hfin
  refine ⟨fun h => b64DecGroups_length_of_not_fin hvalid hlen fun g hg => hcont g hg (h g hg), fun t ht h => ?_,
    b64DecGroups_length_le inp⟩
  have hcontT : ∀ g < t, (groupAt inp g).fin = false := fun g hg => hcont g (hg.trans ht) (h g hg)
  have hlenT (hfin : (groupAt inp t).fin = true) := b64DecGroups_length_of_fin hvalid (hfits t ht) hcontT hfin
  rcases groupAt_count_cases hvalid (hfits t ht) with ⟨hs2, hk, hfin⟩ | ⟨hs2, hs3, hk, hfin⟩ | ⟨hs2, hs3, -⟩
  · exact ⟨fun _ => by rw [hlenT hfin, hk]; rfl, fun h2 => absurd hs2 h2⟩
  · exact ⟨fun h2 => absurd h2 hs2, fun _ _ => by rw [hlenT hfin, hk]; rfl⟩
  · exact ⟨fun h2 => absurd h2 hs2, fun _ h3 => absurd h3 hs3⟩

/-! ## Base16 text is canonical -/

/-- The two symbols of the byte of a valid pair are the pair (R151, R161). -/
theorem u16e_u16d {h l : Byte} (hh : inv16 h ≠ .invalid) (hl : inv16 l ≠ .invalid) : u16e (u16d h l).b = (h, l) := by
  obtain ⟨hi, hhi⟩ := exists_inv16_eq_val hh
  obtain ⟨lo, hlo⟩ := exists_inv16_eq_val hl
  rw [u16d_valid hhi hlo, u16e, BitVec.extractLsb'_append_eq_left, BitVec.extractLsb'_append_eq_right,
    lut16_of_inv16 hhi, lut16_of_inv16 hlo]

theorem b16Enc_b16DecPairs {text : List Byte} (heven : text.length % 2 = 0) (hvalid : ∀ c ∈ text, inv16 c ≠ .invalid) :
    b16Enc (b16DecPairs text) = text := by
  induction text using b16DecPairs.induct with
  | case1 h l rest ih =>
    obtain ⟨hh, hl, hrest⟩ := by simpa only [List.forall_mem_cons] using hvalid
    have heven' : rest.length % 2 = 0 := (Nat.add_mod_right rest.length 2).symm.trans heven
    rw [b16DecPairs, b16Enc, u16e_u16d hh hl, ih heven' hrest]
  | case2 text hshort =>
    match text with
    | [] => rfl
    | [_] => cases heven
    | h :: l :: rest => exact (hshort h l rest rfl).elim

theorem b16Dec_eq_ok {text out : List Byte} (h : b16Dec text = .ok out) :
    text.length % 2 = 0 ∧ (∀ c ∈ text, inv16 c ≠ .invalid) ∧ out = b16DecPairs text := by
  rcases b16Dec_cases text with ⟨-, herr⟩ | ⟨-, -, herr⟩ | ⟨heven, hvalid, -⟩
  · cases herr.symm.trans h
  · cases herr.symm.trans h
  · exact ⟨heven, hvalid, b16Dec_ok h⟩

/-- Settles O22: encoding inverts decoding on a valid text, and the round trip leaves no other sequence. -/
theorem base16TextIsCanonical : Obligations.Base16TextIsCanonical := by
  intro text b hok
  obtain ⟨heven, hvalid, rfl⟩ := b16Dec_eq_ok hok
  have htext := b16Enc_b16DecPairs heven hvalid
  refine ⟨htext, ?_, fun b' hb' => ?_⟩
  · rw [← b16Enc_length, htext]
  · rw [← hb', b16DecPairs_b16Enc]

end Sys2Proof.Machine
end

section
/-! SUPPORT. What a commit changes and defines, and the round trips on the machine (40_command_engine.md R106, R107,
42_base64_decode.md section 2, 44_base16_decode.md section 2). -/

namespace Sys2Proof.Machine

/-! ## Frame -/

/-- R106, R107: a commit touches OBUF, OUT_LEN and STATUS, and draws fresh values for the undefined cells. -/
theorem commit_frame (r : Result) (s : State) :
    commit r s = { s with
      obuf := (commit r s).obuf, outLen := (commit r s).outLen, phase := .idle, done := true, err := (commit r s).err
      rej := false, draw := s.draw + 1, obufDraw := s.draw } := by
  cases r <;> rfl

theorem ibufByte_commit (r : Result) (s : State) (a : Nat) : ibufByte (commit r s) a = ibufByte s a := by
  cases r <;> rfl

/-- Settles O28: every command is a commit, so its frame is the commit's. -/
theorem commitChangesOnlyObufOutLenStatus : Obligations.CommitChangesOnlyObufOutLenStatus :=
  fun i s => ⟨_, exec_eq i s, commit_frame _ s, ibufByte_commit _ s⟩

/-! ## Defined cells -/

/-- The cells that a fitting output defines are those that OUT_LEN counts. -/
theorem commitOk_isSome_iff {out : List Byte} {s : State} (hfits : out.length ≤ s.cfg.obufSize) (j : Nat) :
    (Memory.get? (commitOk out s).obuf j).isSome = true ↔ j < (commitOk out s).outLen.toNat := by
  rw [commitOk_outLen_toNat hfits]
  simp [memory_get_ofBytes]

/-- Settles O29: a success defines the cells of its output, which fits OBUF, and an error none. -/
theorem commitDefinesExactlyTheOutputCells : Obligations.CommitDefinesExactlyTheOutputCells := by
  intro i s t hen h
  cases (exec_eq i s).symm.trans h
  rcases commit_cases (transform i (input s)) s with ⟨out, hok, hc⟩ | ⟨k, -, hc⟩
  · rw [hc]
    have hfits := transform_length_le_obufSize ((input_length s).trans_le hen) hok
    exact ⟨commitOk_isSome_iff hfits, fun herr => absurd rfl herr⟩
  · rw [hc]
    exact ⟨by simp, fun _ => ⟨rfl, fun _ => rfl⟩⟩

/-! ## Round trips on the machine (R143, R167) -/

/-- A command that succeeds commits STATUS 0x00000002, the length of its output and its bytes. -/
theorem exec_of_ok {i : Instr} {s : State} {out : List Byte} (hen : s.en.toNat ≤ s.cfg.ibufSize)
    (hok : transform i (input s) = .ok out) :
    ∃ t, exec i s = .next t ∧ statusWord t = 0x00000002#32 ∧ t.outLen.toNat = out.length
      ∧ ∀ j, (hj : j < out.length) → obufByte t j = out[j] := by
  have hfits := transform_length_le_obufSize ((input_length s).trans_le hen) hok
  refine ⟨commitOk out s, ?_, statusWord_commitOk out s, commitOk_outLen_toNat hfits, fun j hj =>
    obufByte_commitOk_of_lt hj s⟩
  rw [exec_eq, hok]
  rfl

/-- A block whose IBUF holds `out`, with its length latched, has `out` as its input. -/
theorem input_eq_of_ibufByte {s : State} {out : List Byte} (hlen : s.en.toNat = out.length)
    (hbytes : ∀ j, (hj : j < out.length) → ibufByte s j = out[j]) : input s = out := by
  refine List.ext_getElem ((input_length s).trans hlen) fun j h1 h2 => ?_
  rw [input_getElem h1, hbytes j h2]

/-- Where the transform of `dec` inverts that of `enc`, a block that runs `dec` over the text that `enc` committed commits
the input of `enc`. -/
theorem machine_round_trip {enc dec : Instr} {s t s' : State} {text : List Byte}
    (henc : transform enc (input s) = .ok text) (hdec : transform dec text = .ok (input s))
    (hen : s.en.toNat ≤ s.cfg.ibufSize) (hen' : s'.en.toNat ≤ s'.cfg.ibufSize) (ht : exec enc s = .next t)
    (hlen : s'.en.toNat = t.outLen.toNat) (hcopy : ∀ j < t.outLen.toNat, ibufByte s' j = obufByte t j) :
    ∃ t', exec dec s' = .next t' ∧ statusWord t' = 0x00000002#32
      ∧ t'.outLen.toNat = s.en.toNat ∧ ∀ j < s.en.toNat, obufByte t' j = ibufByte s j := by
  obtain ⟨t₁, ht₁, -, htlen, htbytes⟩ := exec_of_ok hen henc
  cases ht₁.symm.trans ht
  rw [htlen] at hlen hcopy
  have hinput : input s' = text :=
    input_eq_of_ibufByte hlen fun j hj => (hcopy j hj).trans (htbytes j hj)
  obtain ⟨t', ht', hstatus, hlen', hbytes'⟩ := exec_of_ok hen' (hinput ▸ hdec)
  refine ⟨t', ht', hstatus, hlen'.trans (input_length s), fun j hj => ?_⟩
  have hj' : j < (input s).length := by rwa [input_length]
  rw [hbytes' j hj', input_getElem hj']

/-- Settles O31, from the round trip of the transforms. -/
theorem machineBase64RoundTrip : Obligations.MachineBase64RoundTrip :=
  fun s _ _ hen hen' => machine_round_trip (enc := .b64enc) (dec := .b64dec) rfl (base64RoundTrip (input s)) hen hen'

/-- Settles O32, from the round trip of the transforms. -/
theorem machineBase16RoundTrip : Obligations.MachineBase16RoundTrip :=
  fun s _ _ hen hen' => machine_round_trip (enc := .b16enc) (dec := .b16dec) rfl (base16RoundTrip (input s)) hen hen'

end Sys2Proof.Machine
end

section
/-! SUPPORT. Host accesses: which are supported, and what each reads or writes of the registers and the buffers
(20_memory.md R52 to R69, 10_state.md R26 to R28). -/

namespace Sys2Proof.Machine

/-! ## Which accesses are supported (R52, R53, R62 to R64) -/

theorem busTarget_isSome_iff (p : Params) (off : Offset) (n : Nat) :
    (busTarget p off n).isSome = true ↔
      (n = 4 ∧ off.toNat % 4 = 0 ∧ off.toNat ≤ 0xFF)
        ∨ ((n = 1 ∨ n = 2 ∨ n = 4) ∧ off.toNat % n = 0
            ∧ ((0x10000 ≤ off.toNat ∧ off.toNat + n ≤ 0x10000 + p.ibufSize)
              ∨ (0x20000 ≤ off.toNat ∧ off.toNat + n ≤ 0x20000 + p.obufSize))) := by
  constructor
  · intro h
    obtain ⟨tg, htg⟩ := Option.isSome_iff_exists.1 h
    obtain ⟨hn, ⟨o, -, rfl, hle, hn4, hal⟩ | ⟨a, -, ho, -, hal, hle⟩ | ⟨a, -, ho, hal, hle⟩⟩ := busTarget_cases htg
    · exact .inl ⟨hn4, hal, hle⟩
    · exact .inr ⟨hn, hal, .inl ⟨by omega, by omega⟩⟩
    · exact .inr ⟨hn, hal, .inr ⟨by omega, by omega⟩⟩
  · rintro (⟨rfl, hal, hle⟩ | ⟨hn, hal, ⟨hge, hle⟩ | ⟨hge, hle⟩⟩)
    · rw [busTarget_reg p hle hal, Option.isSome_some]
    · rw [busTarget_ibuf (a := off.toNat - 0x10000) (by omega) hn hal (by omega), Option.isSome_some]
    · rw [busTarget_obuf (a := off.toNat - 0x20000) (by omega) hn hal (by omega), Option.isSome_some]

/-- A read is a bus error, or reaches its target and answers. -/
theorem hostAccess_read_cases {s : State} (off : Offset) (n : Nat) (hr : s.resetPin = false) :
    ((busTarget s.cfg off n).isSome = false ∧ hostAccess (.read off n) s = .fault (.busError off))
      ∨ ((busTarget s.cfg off n).isSome = true ∧ ∃ t, hostAccess (.read off n) s = .next t) := by
  cases hb : busTarget s.cfg off n with
  | none => exact .inl ⟨rfl, by simp [hostAccess, memRead, hr, hb]⟩
  | some tg => exact .inr ⟨rfl, by cases tg <;> simp [hostAccess, memRead, hr, hb]⟩

/-- A write likewise. -/
theorem hostAccess_write_cases {s : State} (off : Offset) (n : Nat) (v : Word) (hr : s.resetPin = false) :
    ((busTarget s.cfg off n).isSome = false ∧ hostAccess (.write off n v) s = .fault (.busError off))
      ∨ ((busTarget s.cfg off n).isSome = true ∧ ∃ t, hostAccess (.write off n v) s = .next t) := by
  cases hb : busTarget s.cfg off n with
  | none => exact .inl ⟨rfl, by simp [hostAccess, memWrite, hr, hb]⟩
  | some tg => exact .inr ⟨rfl, by cases tg <;> simp [hostAccess, memWrite, hr, hb]⟩

/-- Settles O40: the address map supports exactly the listed accesses, and the others fault. -/
theorem busErrorExactlyWhenUnsupported : Obligations.BusErrorExactlyWhenUnsupported := by
  intro s off n v hr supported
  have hiff : (busTarget s.cfg off n).isSome = true ↔ supported := busTarget_isSome_iff s.cfg off n
  rw [← hiff]
  rcases hostAccess_read_cases off n hr with ⟨hb, hread⟩ | ⟨hb, t, hread⟩
  · rcases hostAccess_write_cases off n v hr with ⟨-, hwrite⟩ | ⟨hb', -⟩
    · simp [hb, hread, hwrite]
    · exact nomatch hb.symm.trans hb'
  · rcases hostAccess_write_cases off n v hr with ⟨hb', -⟩ | ⟨-, u, hwrite⟩
    · exact nomatch hb'.symm.trans hb
    · simp [hb, hread, hwrite]

/-! ## What an access to a buffer does (R60, R61) -/

section BufferAccess

variable {s : State} {off : Offset} {n a : Nat}

theorem hostAccess_read_ibuf (hr : s.resetPin = false) (hb : busTarget s.cfg off n = some (.ibuf a)) :
    hostAccess (.read off n) s = .next (readIbuf a n s) := by
  simp [hostAccess, memRead, hr, hb]

theorem hostAccess_read_obuf (hr : s.resetPin = false) (hb : busTarget s.cfg off n = some (.obuf a)) :
    hostAccess (.read off n) s = .next (readObuf a n s) := by
  simp [hostAccess, memRead, hr, hb]

theorem hostAccess_write_ibuf (v : Word) (hr : s.resetPin = false) (hb : busTarget s.cfg off n = some (.ibuf a)) :
    hostAccess (.write off n v) s = .next (writeIbuf off a n v s) := by
  simp [hostAccess, memWrite, hr, hb]

/-- R68. -/
theorem hostAccess_write_obuf (v : Word) (hr : s.resetPin = false) (hb : busTarget s.cfg off n = some (.obuf a)) :
    hostAccess (.write off n v) s = .next s := by
  simp [hostAccess, memWrite, hr, hb]

end BufferAccess

theorem writeIbuf_of_idle {s : State} (off : Offset) (a n : Nat) (v : Word) (hp : s.phase = .idle) :
    writeIbuf off a n v s = { s with ibuf := Memory.writeBytes s.ibuf a (leBytes n v) } := by
  simp [writeIbuf, hp]

theorem writeIbuf_of_run {s : State} (off : Offset) (a n : Nat) (v : Word) (hp : s.phase = .run) :
    writeIbuf off a n v s = s.lose (.lostIbufWrite off) := by
  simp [writeIbuf, hp]

theorem readObuf_of_idle {s : State} (a n : Nat) (hp : s.phase = .idle) :
    readObuf a n s = s.answer (leValue ((List.range n).map fun k => obufByte s (a + k))) := by
  simp [readObuf, hp]

theorem readObuf_of_run {s : State} (a n : Nat) (hp : s.phase = .run) :
    ∃ x, readObuf a n s = { s.answer x with draw := s.draw + 1 } :=
  ⟨_, by simp only [readObuf, hp]; rfl⟩

/-! ## Byte order (R55, R56) -/

theorem leValue_cons_toNat {b : Byte} {bs : List Byte} (h : (leValue bs).toNat < 2 ^ 24) :
    (leValue (b :: bs)).toNat = (leValue bs).toNat * 2 ^ 8 + b.toNat := by
  have hb := b.isLt
  rw [leValue, BitVec.toNat_or, BitVec.toNat_shiftLeft, BitVec.toNat_setWidth, Nat.mod_eq_of_lt (a := b.toNat) (by omega),
    Nat.shiftLeft_eq, Nat.mod_eq_of_lt (by omega), Nat.mul_comm, Nat.two_pow_add_eq_or_of_lt hb]

theorem leValue_toNat_lt {bs : List Byte} (h : bs.length ≤ 4) : (leValue bs).toNat < 2 ^ (8 * bs.length) := by
  induction bs with
  | nil => decide
  | cons b bs ih =>
    rw [List.length_cons] at h ⊢
    have hlt := ih (by omega)
    have hpow : 2 ^ (8 * bs.length) ≤ 2 ^ 24 := Nat.pow_le_pow_right (by decide) (by omega)
    have hb := b.isLt
    rw [leValue_cons_toNat (hlt.trans_le hpow), Nat.mul_succ, Nat.pow_add]
    omega

/-- The bus value of at most four bytes is their little-endian sum. -/
theorem leValue_toNat {n : Nat} (f : Nat → Byte) (hn : n ≤ 4) :
    (leValue ((List.range n).map f)).toNat = ((List.range n).map fun k => (f k).toNat * 2 ^ (8 * k)).sum := by
  induction n generalizing f with
  | zero => rfl
  | succ n ih =>
    have hlt := leValue_toNat_lt (bs := (List.range n).map (f ∘ Nat.succ)) (by simp; omega)
    have hpow : 2 ^ (8 * n) ≤ 2 ^ 24 := Nat.pow_le_pow_right (by decide) (by omega)
    have hterm (k : Nat) : (f (k + 1)).toNat * 2 ^ (8 * (k + 1)) = (f (k + 1)).toNat * 2 ^ (8 * k) * 2 ^ 8 := by
      rw [Nat.mul_succ, Nat.pow_add, Nat.mul_assoc]
    rw [List.length_map, List.length_range] at hlt
    rw [List.range_succ_eq_map, List.map_cons, List.map_cons, List.map_map, List.map_map, List.sum_cons,
      leValue_cons_toNat (hlt.trans_le hpow), ih _ (by omega)]
    simp only [Function.comp_def, Nat.succ_eq_add_one, hterm, List.sum_map_mul_right]
    simp [Nat.add_comm]

/-- IBUF after a write of the low bytes of a bus word. -/
theorem ibufByte_writeBytes (s : State) (a n x : Nat) (v : Word) :
    ibufByte { s with ibuf := Memory.writeBytes s.ibuf a (leBytes n v) } x =
      if a ≤ x ∧ x < a + n then v.extractLsb' (8 * (x - a)) 8 else ibufByte s x := by
  unfold ibufByte
  rw [memory_get_writeBytes, leBytes_length]
  split
  · rw [leBytes_getElem?, if_pos (by omega), Option.getD_some]
  · rfl

/-! ## The obligations on buffer accesses -/

theorem size_le_four {n : Nat} (hn : n = 1 ∨ n = 2 ∨ n = 4) : n ≤ 4 := by omega

/-- Settles O41: the write stores the bytes of the bus word from cell `a` on. -/
theorem ibufWriteStoresLittleEndian : Obligations.IbufWriteStoresLittleEndian := by
  intro s off n a v hr hp ho hn hal hle
  refine ⟨_, hostAccess_write_ibuf v hr (busTarget_ibuf ho hn hal hle), ?_⟩
  rw [writeIbuf_of_idle off a n v hp]
  refine ⟨rfl, fun k hk => ?_, fun x hx => ?_⟩
  · rw [ibufByte_writeBytes, if_pos (by omega), Nat.add_sub_cancel_left]
  · rw [ibufByte_writeBytes, if_neg (by omega)]

/-- Settles O42: a read of IBUF does not look at the phase. -/
theorem ibufReadIsLittleEndianSum : Obligations.IbufReadIsLittleEndianSum := by
  intro s off n a hr ho hn hal hle
  exact ⟨_, hostAccess_read_ibuf hr (busTarget_ibuf ho hn hal hle), leValue_toNat _ (size_le_four hn)⟩

/-- Settles O43: on an idle block the cells are the stored ones. -/
theorem obufIdleReadIsLittleEndianSum : Obligations.ObufIdleReadIsLittleEndianSum := by
  intro s off n a hr hp ho hn hal hle
  refine ⟨_, ?_, leValue_toNat (fun k => obufByte s (a + k)) (size_le_four hn)⟩
  exact (hostAccess_read_obuf hr (busTarget_obuf ho hn hal hle)).trans (congrArg _ (readObuf_of_idle a n hp))

/-- Settles O44: a write to OBUF has no effect, and a busy read draws a free value. -/
theorem obufWriteIgnoredAndBusyReadAnswers : Obligations.ObufWriteIgnoredAndBusyReadAnswers := by
  intro s off n a v hr ho hn hal hle
  have hb := busTarget_obuf ho hn hal hle
  refine ⟨hostAccess_write_obuf v hr hb, fun hp => ?_⟩
  obtain ⟨x, hx⟩ := readObuf_of_run a n hp
  exact ⟨x, (hostAccess_read_obuf hr hb).trans (congrArg _ hx)⟩

/-- Settles O35: each of the three writes is lost, and nothing but the record of it changes. -/
theorem busyWritesAreLost : Obligations.BusyWritesAreLost := by
  intro s w hr hp
  refine ⟨?_, ?_, fun off n a ho hn hal hle => ?_⟩
  · rw [hostAccess_write_reg w hr (by decide) (by decide)]
    simp [regWrite, writeCmd, hp, State.lose]
  · rw [hostAccess_write_reg w hr (by decide) (by decide)]
    simp [regWrite, writeInLen, hp, State.lose]
  · exact (hostAccess_write_ibuf w hr (busTarget_ibuf ho hn hal hle)).trans (congrArg _ (writeIbuf_of_run off a n w hp))

/-! ## The registers -/

/-- Settles O36: the fields stand side by side in the word, REJ above ERR above DONE above BUSY; each is cut off above the
fields below it. -/
theorem statusWordLayout : Obligations.StatusWordLayout := by
  intro s
  have hbusy : s.busy = decide (s.phase = .run) := by cases hp : s.phase <;> simp [State.busy, hp]
  rw [← hbusy]
  unfold statusWord
  refine ⟨BitVec.extractLsb'_append_eq_right, ?_, ?_, ?_, ?_⟩
  · rw [BitVec.extractLsb'_append_eq_of_le (by decide)]
    exact BitVec.extractLsb'_append_eq_right
  · rw [BitVec.extractLsb'_append_eq_of_le (by decide), BitVec.extractLsb'_append_eq_of_le (by decide)]
    exact BitVec.extractLsb'_append_eq_right
  · rw [BitVec.extractLsb'_append_eq_of_le (by decide), BitVec.extractLsb'_append_eq_of_le (by decide),
      BitVec.extractLsb'_append_eq_of_le (by decide)]
    exact BitVec.extractLsb'_append_eq_right
  · rw [BitVec.extractLsb'_append_eq_of_le (by decide), BitVec.extractLsb'_append_eq_of_le (by decide),
      BitVec.extractLsb'_append_eq_of_le (by decide)]
    exact BitVec.extractLsb'_append_eq_left

/-- Settles O37: RegRead decides by the offset's value, which is the offset. -/
theorem registerReads : Obligations.RegisterReads := by
  intro s off hr hle hal
  rw [hostAccess_read_reg hr (by omega) hal]
  simp only [regRead, ← BitVec.toNat_inj]
  rfl

/-- R27: the register is 17 bits wide, and reads with zeros above. -/
theorem inLen_setWidth (l : BitVec 17) : l.setWidth 32 = 0#15 ++ l :=
  BitVec.setWidth_eq_append (by decide)

theorem hostAccess_write_inLen_of_idle {s : State} (w : Word) (hr : s.resetPin = false) (hp : s.phase = .idle) :
    hostAccess (.write 0x00008#18 4 w) s = .next { s with inLen := w.extractLsb' 0 17 } := by
  rw [hostAccess_write_reg w hr (by decide) (by decide)]
  simp [regWrite, writeInLen, hp]

/-- Settles O39: the write keeps 17 bits, and the read puts zeros above them. -/
theorem inLenWriteStoresSeventeenBits : Obligations.InLenWriteStoresSeventeenBits := by
  intro s w hr hp
  refine ⟨_, hostAccess_write_inLen_of_idle w hr hp, rfl, _, hostAccess_read_reg hr (by decide) (by decide), ?_⟩
  exact congrArg some (inLen_setWidth _)

/-! ## The host's duties (R115) -/

theorem phase_idle_of_not_busy {s : State} (h : s.busy = false) : s.phase = .idle := by
  cases hp : s.phase with
  | idle => rfl
  | run => simp [State.busy, hp] at h

/-- A supported read loses nothing and rejects nothing, whatever it reads. -/
theorem hostAccess_read_harmless {s : State} {off : Offset} {n : Nat} {tg : Target} (hr : s.resetPin = false)
    (hb : busTarget s.cfg off n = some tg) :
    ∃ t, hostAccess (.read off n) s = .next t ∧ t.hazards = s.hazards ∧ (t.rej = true → s.rej = true) := by
  cases tg with
  | reg o => exact ⟨s.answer (regRead o s), by simp [hostAccess, memRead, hr, hb], rfl, id⟩
  | ibuf a => exact ⟨_, hostAccess_read_ibuf hr hb, rfl, id⟩
  | obuf a =>
    cases hp : s.phase with
    | idle =>
      refine ⟨_, hostAccess_read_obuf hr hb, ?_⟩
      rw [readObuf_of_idle a n hp]
      exact ⟨rfl, id⟩
    | run =>
      obtain ⟨x, hx⟩ := readObuf_of_run (s := s) a n hp
      refine ⟨_, hostAccess_read_obuf hr hb, ?_⟩
      rw [hx]
      exact ⟨rfl, id⟩

theorem regWrite_cmd_of_idle {s : State} (v : Word) (hp : s.phase = .idle) :
    regWrite 0x000 v s = issue v { s with cmd := v } := by
  simp [regWrite, writeCmd, hp]

/-- A write of a legal command word with a fitting length, while BUSY = 0, is accepted and not rejected. -/
theorem regWrite_cmd_harmless {s : State} {v : Word} (hbusy : s.busy = false) (hw : cmdWordWellFormed v = true)
    (hl : lengthWellFormed s.cfg s.inLen = true) :
    (regWrite 0x000 v s).hazards = s.hazards ∧ ((regWrite 0x000 v s).rej = true → s.rej = true) := by
  have hwrite : regWrite 0x000 v s = accept v { s with cmd := v } :=
    (regWrite_cmd_of_idle v (phase_idle_of_not_busy hbusy)).trans
      (issue_eq_accept ((cmdWordWellFormed_iff v).1 hw) ((lengthWellFormed_iff _ _).1 hl))
  rw [hwrite]
  exact ⟨rfl, fun h => nomatch h⟩

/-- A write to any other register word is ignored, but for IN_LEN, which is written only while BUSY = 0. -/
theorem regWrite_other_harmless {s : State} {o : Nat} (v : Word) (ho : o ≠ 0x000) (hlen : o ≠ 0x008 ∨ s.busy = false) :
    (regWrite o v s).hazards = s.hazards ∧ ((regWrite o v s).rej = true → s.rej = true) := by
  by_cases h8 : o = 0x008
  · have hp := phase_idle_of_not_busy (hlen.resolve_left (not_not.2 h8))
    simp [regWrite, writeInLen, hp, h8]
  · rw [regWrite_ignored ho h8]
    exact ⟨rfl, id⟩

/-- Settles O58, by what the access reaches: the host's duties are what each target asks for. -/
theorem dutifulAccessIsAnswered : Obligations.DutifulAccessIsAnswered := by
  intro a s h
  unfold hostDuty at h
  rw [Bool.and_eq_true, Bool.not_eq_true'] at h
  obtain ⟨hr, h⟩ := h
  cases a with
  | read off n =>
    cases hb : busTarget s.cfg off n with
    | none => simp [hb] at h
    | some tg => exact hostAccess_read_harmless hr hb
  | write off n v =>
    cases hb : busTarget s.cfg off n with
    | none => simp [hb] at h
    | some tg =>
      cases tg with
      | reg o =>
        refine ⟨regWrite o v s, by simp [hostAccess, memWrite, hr, hb], ?_⟩
        by_cases ho : o = 0x000
        · subst ho
          obtain ⟨⟨⟨hbusy, hw⟩, hl⟩, -⟩ := by simpa [hb] using h
          exact regWrite_cmd_harmless hbusy hw hl
        · exact regWrite_other_harmless v ho (by simpa [hb, ho] using h)
      | ibuf i =>
        refine ⟨_, hostAccess_write_ibuf v hr hb, ?_⟩
        rw [writeIbuf_of_idle off i n v (phase_idle_of_not_busy (by simpa [hb] using h))]
        exact ⟨rfl, id⟩
      | obuf i => exact ⟨s, hostAccess_write_obuf v hr hb, rfl, id⟩

end Sys2Proof.Machine
end

section
/-! SUPPORT. A running command up to its commit: no turn but a commit or a reset disturbs it, so that it commits the transform
of its input whenever it commits (40_command_engine.md R104 to R111, 70_reset_and_hazards.md R220, R221). -/

namespace Sys2Proof.Machine

/-! ## The command in progress -/

/-- `t` runs the command that `s` runs: the same operation on the same length over the same IBUF, in the same block. -/
structure SameCommand (s t : State) : Prop where
  running : t.phase = .run
  released : t.resetPin = s.resetPin := by rfl
  cfg : t.cfg = s.cfg := by rfl
  cmd : t.cmd = s.cmd := by rfl
  inLen : t.inLen = s.inLen := by rfl
  eop : t.eop = s.eop := by rfl
  en : t.en = s.en := by rfl
  ibuf : t.ibuf = s.ibuf := by rfl
  ibufDraw : t.ibufDraw = s.ibufDraw := by rfl

namespace SameCommand

theorem trans {s t u : State} (h : SameCommand s t) (h' : SameCommand t u) : SameCommand s u :=
  ⟨h'.running, h'.released.trans h.released, h'.cfg.trans h.cfg, h'.cmd.trans h.cmd, h'.inLen.trans h.inLen,
    h'.eop.trans h.eop, h'.en.trans h.en, h'.ibuf.trans h.ibuf, h'.ibufDraw.trans h.ibufDraw⟩

theorem ibufByte_eq {s t : State} (h : SameCommand s t) (a : Nat) : ibufByte t a = ibufByte s a :=
  ibufByte_congr h.ibuf h.ibufDraw a

/-- Where the engine commits, it commits the transform of the input of `s`. -/
theorem engineCommit_eq {s t : State} (h : SameCommand s t) :
    engineCommit t = .next (commit (transform (opInstr s.eop) (input s)) t) := by
  rw [engineCommit_of_run h.running, exec_eq, h.eop, input_congr h.en fun j _ => h.ibufByte_eq j]

end SameCommand

/-- A host access never reaches the command in progress (R108). -/
theorem hostAccess_sameCommand {a : Access} {s t : State} (h : hostAccess a s = .next t) (hp : s.phase = .run) :
    SameCommand s t ∧ t.turns = s.turns := by
  have hidle : s.phase ≠ .idle := fun hidle => nomatch hp.symm.trans hidle
  obtain ⟨-, h⟩ := hostAccess_cases h
  rcases h with ⟨v, rfl⟩ | ⟨v, -, rfl⟩ | ⟨w, -, hp', -⟩ | ⟨w, hp', -⟩ | ⟨i, n, v, hp', -⟩ | ⟨z, -, rfl⟩ | rfl
  · exact ⟨{ running := hp }, rfl⟩
  · exact ⟨{ running := hp }, rfl⟩
  · exact absurd hp' hidle
  · exact absurd hp' hidle
  · exact absurd hp' hidle
  · exact ⟨{ running := hp }, rfl⟩
  · exact ⟨{ running := hp }, rfl⟩

theorem workStep_sameCommand {s : State} (hp : s.phase = .run) :
    SameCommand s (workStep s) ∧ (workStep s).turns = s.turns := by
  rw [workStep_frame]
  exact ⟨{ running := hp }, rfl⟩

/-! ## What the result of a commit shares with the transform's result in another state -/

theorem commit_idle_done (r : Result) (s : State) : (commit r s).phase = .idle ∧ (commit r s).done = true := by
  cases r <;> exact ⟨rfl, rfl⟩

theorem statusWord_commit_congr (r : Result) (s t : State) : statusWord (commit r s) = statusWord (commit r t) := by
  obtain ⟨h, -, -⟩ := commit_output_congr r s t
  exact h

theorem outLen_commit_congr (r : Result) (s t : State) : (commit r s).outLen = (commit r t).outLen := by
  obtain ⟨-, h, -⟩ := commit_output_congr r s t
  exact h

theorem obuf_commit_congr (r : Result) (s t : State) : (commit r s).obuf = (commit r t).obuf := by
  cases r <;> rfl

/-! ## Runs -/

theorem run_zero (s : State) : Host.Core.run Sys2Proof.core 0 s = .next s := rfl

theorem run_succ {s t : State} (h : step s = .next t) (k : Nat) :
    Host.Core.run Sys2Proof.core (k + 1) s = Host.Core.run Sys2Proof.core k t := by
  have hcore : Sys2Proof.core.step s = .next t := h
  simp only [Host.Core.run, hcore]

/-! ## Every command commits (R110) -/

/-- A turn that neither resets the block nor makes an access the block does not support. -/
def SupportedTurn (p : Params) (m : Turn) : Prop :=
  m ≠ .resetOn
    ∧ (∀ off n, m = .host (.read off n) → (busTarget p off n).isSome = true)
    ∧ (∀ off n w, m = .host (.write off n w) → (busTarget p off n).isSome = true)

/-- A supported access is answered. -/
theorem hostAccess_of_supported {a : Access} {s : State} (hr : s.resetPin = false) (h : SupportedTurn s.cfg (.host a)) :
    ∃ t, hostAccess a s = .next t := by
  obtain ⟨-, hread, hwrite⟩ := h
  cases a with
  | read off n =>
    rcases hostAccess_read_cases off n hr with ⟨hb, -⟩ | ⟨-, ht⟩
    · exact nomatch hb.symm.trans (hread off n rfl)
    · exact ht
  | write off n w =>
    rcases hostAccess_write_cases off n w hr with ⟨hb, -⟩ | ⟨-, ht⟩
    · exact nomatch hb.symm.trans (hwrite off n w rfl)
    · exact ht

/-- A supported turn is the commit, or leaves the command in progress. -/
theorem step_of_supported {s : State} {m : Turn} {rest : List Turn} (ht : s.turns = m :: rest) (hp : s.phase = .run)
    (hr : s.resetPin = false) (hm : SupportedTurn s.cfg m) :
    m = .engineCommit ∨ ∃ t, step s = .next t ∧ SameCommand s t ∧ t.turns = rest := by
  have htaken : SameCommand s { s with turns := rest } := { running := hp }
  cases m with
  | host a =>
    obtain ⟨t, hacc⟩ := hostAccess_of_supported (s := { s with turns := rest }) hr hm
    obtain ⟨hsame, hturns⟩ := hostAccess_sameCommand hacc hp
    exact .inr ⟨t, (step_host ht).trans hacc, htaken.trans hsame, hturns⟩
  | engineWork =>
    obtain ⟨hsame, hturns⟩ := workStep_sameCommand (s := { s with turns := rest }) hp
    exact .inr ⟨_, step_engineWork ht, htaken.trans hsame, hturns⟩
  | engineCommit => exact .inl rfl
  | resetOn =>
    obtain ⟨hno, -⟩ := hm
    exact absurd rfl hno
  | resetOff => exact .inr ⟨_, step_resetOff ht, { running := hp, released := hr.symm }, rfl⟩

/-- After at most all the turns listed the next step is the commit of the command that ran at the start. -/
theorem run_until_commit {s : State} (hp : s.phase = .run) (hr : s.resetPin = false)
    (hturns : ∀ m ∈ s.turns, SupportedTurn s.cfg m) :
    ∃ k ≤ s.turns.length, ∃ u v, Host.Core.run Sys2Proof.core k s = .next u ∧ SameCommand s u
      ∧ step u = .next (commit (transform (opInstr s.eop) (input s)) v) := by
  induction hl : s.turns generalizing s with
  | nil =>
    have hsame : SameCommand s s := { running := hp }
    exact ⟨0, le_rfl, s, s, run_zero s, hsame, (step_nil hl).trans hsame.engineCommit_eq⟩
  | cons m rest ih =>
    obtain ⟨hm, hrest⟩ := List.forall_mem_cons.1 (hl ▸ hturns)
    rcases step_of_supported hl hp hr hm with rfl | ⟨t, hstep, hsame, hturnsT⟩
    · have htaken : SameCommand s { s with turns := rest } := { running := hp }
      exact ⟨0, Nat.zero_le _, s, _, run_zero s, { running := hp },
        (step_engineCommit hl).trans htaken.engineCommit_eq⟩
    · have hrestT : ∀ m ∈ t.turns, SupportedTurn t.cfg m := by rwa [hturnsT, hsame.cfg]
      obtain ⟨k, hk, u, v, hrun, hsameU, hcommit⟩ := ih hsame.running (hsame.released.trans hr) hrestT hturnsT
      refine ⟨k + 1, Nat.succ_le_succ hk, u, v, (run_succ hstep k).trans hrun, hsame.trans hsameU, ?_⟩
      rw [hcommit, hsame.eop, input_congr hsame.en fun j _ => hsame.ibufByte_eq j]

/-- Settles O56: the command in progress is the one that commits. -/
theorem everyAcceptedCommandCommits : Obligations.EveryAcceptedCommandCommits := by
  intro s hp hr hturns
  obtain ⟨k, hk, u, v, hrun, hsame, hcommit⟩ := run_until_commit hp hr hturns
  obtain ⟨hidle, hdone⟩ := commit_idle_done (transform (opInstr s.eop) (input s)) v
  refine ⟨k, hk, u, _, hrun, hsame.running, hsame.eop, hsame.en, hsame.ibufByte_eq, hcommit, hidle, hdone,
    statusWord_commit_congr _ _ _, outLen_commit_congr _ _ _, fun j => ?_⟩
  rw [obuf_commit_congr _ v s]

/-! ## The result does not depend on the latency (R220, R221) -/

/-- Work steps, then the commit turn: the transform of the input that was there before them is committed. -/
theorem run_work_then_commit {s : State} {rest : List Turn} {k : Nat} (hp : s.phase = .run)
    (ht : s.turns = List.replicate k .engineWork ++ .engineCommit :: rest) :
    ∃ v, SameCommand s v ∧ v.turns = rest
      ∧ Host.Core.run Sys2Proof.core (k + 1) s = .next (commit (transform (opInstr s.eop) (input s)) v) := by
  induction k generalizing s with
  | zero =>
    have htaken : SameCommand s { s with turns := rest } := { running := hp }
    exact ⟨_, htaken, rfl, run_succ ((step_engineCommit ht).trans htaken.engineCommit_eq) 0⟩
  | succ k ih =>
    have ht' : s.turns = .engineWork :: (List.replicate k .engineWork ++ .engineCommit :: rest) := ht
    have htaken : SameCommand s { s with turns := List.replicate k .engineWork ++ .engineCommit :: rest } :=
      { running := hp }
    obtain ⟨hwork, hturns⟩ := workStep_sameCommand htaken.running
    have hsame := htaken.trans hwork
    obtain ⟨v, hsameV, hrest, hrun⟩ := ih hsame.running hturns
    rw [hsame.eop, input_congr hsame.en fun j _ => hsame.ibufByte_eq j] at hrun
    exact ⟨v, hsame.trans hsameV, hrest, (run_succ (step_engineWork ht') _).trans hrun⟩

theorem opInstr_cmdOp_encode (i : Instr) : opInstr (cmdOp (encode i)) = i := by
  cases i <;> rfl

theorem rsvd_encode (i : Instr) : (encode i).extractLsb' 2 30 = 0#30 := by
  cases i <;> rfl

/-- A CMD write of a command whose length fits starts it (R101, R103). -/
theorem step_write_encode {s : State} {i : Instr} {rest : List Turn} (hr : s.resetPin = false) (hp : s.phase = .idle)
    (hlen : s.inLen.toNat ≤ s.cfg.ibufSize) (ht : s.turns = .host (.write 0x00000#18 4 (encode i)) :: rest) :
    step s = .next (accept (encode i) { s with cmd := encode i, turns := rest }) :=
  calc step s
    _ = hostAccess (.write 0x00000#18 4 (encode i)) { s with turns := rest } := step_host ht
    _ = .next (issue (encode i) { s with cmd := encode i, turns := rest }) := hostAccess_write_cmd_of_idle _ hr hp
    _ = _ := congrArg _ (issue_eq_accept (rsvd_encode i) hlen)

/-- The accepted command is the transform of the first IN_LEN bytes of IBUF. -/
theorem transform_accept (i : Instr) (s : State) :
    transform (opInstr (accept (encode i) s).eop) (input (accept (encode i) s)) = transform i (ibufTake s s.inLen.toNat) :=
  congrArg (transform · (ibufTake s s.inLen.toNat)) (opInstr_cmdOp_encode i)

/-- Settles O57: the accept latches the input, which no work step touches. -/
theorem resultDoesNotDependOnLatency : Obligations.ResultDoesNotDependOnLatency := by
  intro s i k rest hr hp hlen ht
  have hstep := step_write_encode hr hp hlen ht
  obtain ⟨v, hsame, hrest, hrun⟩ := run_work_then_commit (k := k) (rest := rest)
    (s := accept (encode i) { s with cmd := encode i, turns := List.replicate k .engineWork ++ .engineCommit :: rest })
    rfl rfl
  rw [transform_accept] at hrun
  refine ⟨_, (run_succ hstep (k + 1)).trans hrun, ?_⟩
  obtain ⟨hidle, -⟩ := commit_idle_done (transform i (ibufTake s s.inLen.toNat)) v
  refine ⟨?_, ?_, hidle, ?_, ?_, statusWord_commit_congr _ _ _, outLen_commit_congr _ _ _, fun j => ?_⟩
  · exact (congrArg State.turns (commit_frame _ v)).trans hrest
  · exact (congrArg State.cmd (commit_frame _ v)).trans hsame.cmd
  · exact (congrArg State.ibuf (commit_frame _ v)).trans hsame.ibuf
  · exact (congrArg State.inLen (commit_frame _ v)).trans hsame.inLen
  · exact congrArg (Memory.get? · j) (obuf_commit_congr _ v s)

end Sys2Proof.Machine
end
